-- ==== Sys2Proof/Word.lean ====
section
/-! DEFINITION. Bytes, words and the spec's finite sets of names: operations, registers, widths, fields. -/

namespace Sys2Proof

/-- A byte (00_scope R9). -/
abbrev Byte := BitVec 8

/-- What the reference device keeps of a wide register: a natural below 2^32 (20_memory R70). -/
abbrev WideWord := BitVec 32

/-- The four operations of an instruction byte (30_encoding R82). -/
inductive Op where
  | clear | read | write | load
deriving DecidableEq, Repr

/-- The six device registers (10_state R25), by the short names of 00_scope's glossary. -/
inductive Reg where
  | mdr0 | mdr1 | dtr | cntr | otr | str
deriving DecidableEq, Repr

/-- The counter widths (00_scope R7: "the width set {8,16,24,32}"). -/
inductive Width where
  | w8 | w16 | w24 | w32
deriving DecidableEq, Repr

/-- The width in bits. -/
def Width.bits : Width → Nat
  | .w8 => 8
  | .w16 => 16
  | .w24 => 24
  | .w32 => 32

/-- `w/8`, the byte length of a wide register (10_state R25). -/
def Width.bytes (w : Width) : Nat := w.bits / 8

/-- The sixteen sub-fields of the mode and status registers (10_state R30). -/
inductive Field where
  | quadrature | countMode | indexMode | indexSync | filterDiv
  | bits | enabled | flagSources
  | sign | direction | powerLoss | countEnableEcho
  | indexLatch | compareLatch | borrowLatch | carryLatch
deriving DecidableEq, Repr

/-- All sixteen fields, in the order of 10_state R30. -/
def Field.all : List Field :=
  [.quadrature, .countMode, .indexMode, .indexSync, .filterDiv,
   .bits, .enabled, .flagSources,
   .sign, .direction, .powerLoss, .countEnableEcho,
   .indexLatch, .compareLatch, .borrowLatch, .carryLatch]

end Sys2Proof
end

