-- ==== Sys2Proof/Config.lean ====
section
/-! DEFINITION. What the spec leaves open: the parameters of 00_scope R6, the forms of a channel answer
(20_memory R62), the device's registers, and the free values. -/

namespace Sys2Proof

/-- The legal values of the parameter `STATUS_CODE` (00_scope R8, 90_conflicts C1). -/
inductive StatusCode where
  | c30 | c38
deriving DecidableEq, Repr

/-- The parameter `WIDTH_OF`: the width each 2-bit code names (00_scope R6, 10_state R32). -/
structure WidthOf where
  c00 : Width
  c01 : Width
  c10 : Width
  c11 : Width
deriving DecidableEq, Repr

/-- The open part of the parameter `FIELD_LAYOUT`: the lowest bit of every field (10_state R30).
Holders and widths are the source's and are no part of it (DEDUCED, log entry 15). -/
structure Layout where
  quadrature : Nat
  countMode : Nat
  indexMode : Nat
  indexSync : Nat
  filterDiv : Nat
  bits : Nat
  enabled : Nat
  flagSources : Nat
  sign : Nat
  direction : Nat
  powerLoss : Nat
  countEnableEcho : Nat
  indexLatch : Nat
  compareLatch : Nat
  borrowLatch : Nat
  carryLatch : Nat
deriving DecidableEq, Repr

/-- The parameters of 00_scope R6. They are plain data held in State, so that a claim about every state is a
claim about every value of them (DESIGN CHOICE, log entry 3; safe). -/
structure Params where
  statusCode : StatusCode
  widthOf : WidthOf
  layout : Layout
  porMdr0 : Byte
  porMdr1 : Byte
  porStr : Byte
  valueBits : Nat
deriving DecidableEq, Repr

/-- The default of `FIELD_LAYOUT`: the shift column of 10_state R30. -/
def Layout.standard : Layout where
  quadrature := 0
  countMode := 2
  indexMode := 4
  indexSync := 6
  filterDiv := 7
  bits := 0
  enabled := 2
  flagSources := 4
  sign := 0
  direction := 1
  powerLoss := 2
  countEnableEcho := 3
  indexLatch := 4
  compareLatch := 5
  borrowLatch := 6
  carryLatch := 7

/-- The default of `WIDTH_OF` (00_scope R6). -/
def WidthOf.standard : WidthOf where
  c00 := .w32
  c01 := .w24
  c10 := .w16
  c11 := .w8

/-- The defaults of 00_scope R6. `POR_STR` is "unspecified (any byte)" there; 0x00 here is a
DESIGN CHOICE (log entry 2), unsafe. -/
def Params.standard : Params where
  statusCode := .c38
  widthOf := .standard
  layout := .standard
  porMdr0 := 0x00
  porMdr1 := 0x00
  porStr := 0x00
  valueBits := 32

/-- The device's registers, in the form of the reference device (20_memory R70). -/
structure Device where
  mdr0 : Byte
  mdr1 : Byte
  dtr : WideWord
  cntr : WideWord
  otr : WideWord
  str : Byte
deriving DecidableEq, Repr

/-- The content of a TransportError, opaque to the block and passed on unchanged (60_exceptions R232).
It is a token, which the model never looks into (log entry 10). -/
abbrev ErrorToken := Nat

/-- What happened to the device's registers since the transaction before (20_memory R62, R64). -/
inductive DevChange where
  /-- nothing -/
  | quiet
  /-- the device counted or latched on its own: "the device may change CNTR and STR", and OTR (R62) -/
  | activity (cntr otr : WideWord) (str : Byte)
  /-- another master changed anything, or a write had not settled: excluded by EXCLUSIVE and SETTLED (R64, R69) -/
  | foreign (d : Device)
deriving DecidableEq, Repr, Inhabited

/-- How the channel answers one transaction (00_scope R12, 20_memory R62, 93 I6 to I9). -/
inductive Answer where
  /-- the reference device answers; `echo` is the byte of the echo slot (20_memory R70) -/
  | device (echo : Byte)
  /-- the frame reaches the device, and an Exchange returns `rx`, any bytes of any number -/
  | respond (rx : List Byte)
  /-- TransportError; `landed` says whether the frame reached the device (93 I6) -/
  | fail (e : ErrorToken) (landed : Bool)
  /-- the primitive never returns (93 I9) -/
  | silent
deriving DecidableEq, Repr, Inhabited

/-- One draw of the environment: what it does at one transaction. -/
structure Draw where
  change : DevChange
  answer : Answer
deriving DecidableEq, Repr, Inhabited

namespace Config

/-- The unconstrained channel of 20_memory R62: its draw at the n-th transaction. FREE VALUE, log entry 1; safe. -/
opaque freeDraw : Nat → Draw

/-- The byte `X` of the reference device's echo slot at the n-th transaction (20_memory R70). FREE VALUE, log entry 9; safe. -/
opaque freeEcho : Nat → Byte

/-- Byte `j` of the reference device's response, at the n-th transaction, to a frame whose response R70 leaves
unspecified. FREE VALUE, log entry 8; safe. -/
opaque freeByte : Nat → Nat → Byte

/-- What DTR holds after a WR DTR frame whose length does not match, at the n-th transaction (20_memory R70).
FREE VALUE, log entry 8; safe. -/
opaque freeWord : Nat → WideWord

end Config

end Sys2Proof
end

