-- ==== Sys2Proof/Syntax.lean ====
section
/-! DEFINITION. The syntax: the 24 instruction bytes of spec/opcode_table.json, the logical values of fields,
and the commands of the command port (10_state R23). -/

namespace Sys2Proof

/-- The instruction bytes, one constructor per row of spec/opcode_table.json (30_encoding R88, R89). An instruction is
one byte and has no operand in it (R80, R87). -/
inductive Instr where
  | clrMdr0 | clrMdr1 | clrDtr | clrCntr | clrOtr | clrStr
  | rdMdr0 | rdMdr1 | rdDtr | rdCntr | rdOtr | rdStr
  | wrMdr0 | wrMdr1 | wrDtr | wrCntr | wrOtr | wrStr
  | loadMdr0 | loadMdr1 | loadDtr | loadCntr | loadOtr | loadStr
deriving DecidableEq, Repr

/-- The named options of `count_mode`, `index_mode` and `index_sync` (10_state R30). -/
inductive OptionName where
  | freeRun | singleCycle | rangeLimit | moduloN
  | disabled | loadCntr | resetCntr | loadOtr
  | asynchronous | synchronous
deriving DecidableEq, Repr

/-- A logical value of a field, or an operand offered as one (42_mode_fields R180, R181). A value of the wrong
shape for a field is outside its domain (DEDUCED from R181, log entry 12). -/
inductive Logical where
  | int (i : Int)
  | bool (b : Bool)
  | option (n : OptionName)
deriving DecidableEq, Repr

/-- The commands of the command port, exactly those of 10_state R23. -/
inductive Command where
  | encode (op : Op) (reg : Reg)
  | readReg (reg : Reg)
  | writeReg (reg : Reg) (v : Nat)
  | load (reg : Reg)
  | clear (reg : Reg)
  | getCounts
  | setCounts (v : Int)
  | getField (f : Field)
  | setField (f : Field) (x : Logical)
deriving DecidableEq, Repr

/-- A frame: the instruction byte's instruction and its payload bytes (30_encoding R86). -/
structure Frame where
  instr : Instr
  payload : List Byte
deriving DecidableEq, Repr

end Sys2Proof
end

