-- ==== Sys2Proof/Decode.lean ====
section
/-! DEFINITION. The instruction byte: its fields, the decoder of a byte-stream observer (30_encoding R85, R91), and
the encoder of 40_encoder R110. The block itself only encodes; the decoder is the observer's and the device's
(log entry 21). -/

namespace Sys2Proof

/-- `OP_BYTE(op)` (30_encoding R82). -/
def opByte : Op → Byte
  | .clear => 0x00
  | .read => 0x40
  | .write => 0x80
  | .load => 0xC0

/-- The byte `STATUS_CODE` (00_scope R8). -/
def statusByte : StatusCode → Byte
  | .c30 => 0x30
  | .c38 => 0x38

/-- `REG_BYTE(reg)` (30_encoding R83). -/
def regByte (p : Params) : Reg → Byte
  | .mdr0 => 0x08
  | .mdr1 => 0x10
  | .dtr => 0x18
  | .cntr => 0x20
  | .otr => 0x28
  | .str => statusByte p.statusCode

/-- `encode(op, reg) = OP_BYTE(op) | REG_BYTE(reg)` (30_encoding R84, 40_encoder R110). -/
def encodeByte (p : Params) (op : Op) (reg : Reg) : Byte := opByte op ||| regByte p reg

/-- The operation of an instruction (opcode_table.json). -/
def opOf : Instr → Op
  | .clrMdr0 | .clrMdr1 | .clrDtr | .clrCntr | .clrOtr | .clrStr => .clear
  | .rdMdr0 | .rdMdr1 | .rdDtr | .rdCntr | .rdOtr | .rdStr => .read
  | .wrMdr0 | .wrMdr1 | .wrDtr | .wrCntr | .wrOtr | .wrStr => .write
  | .loadMdr0 | .loadMdr1 | .loadDtr | .loadCntr | .loadOtr | .loadStr => .load

/-- The register of an instruction (opcode_table.json). -/
def regOf : Instr → Reg
  | .clrMdr0 | .rdMdr0 | .wrMdr0 | .loadMdr0 => .mdr0
  | .clrMdr1 | .rdMdr1 | .wrMdr1 | .loadMdr1 => .mdr1
  | .clrDtr | .rdDtr | .wrDtr | .loadDtr => .dtr
  | .clrCntr | .rdCntr | .wrCntr | .loadCntr => .cntr
  | .clrOtr | .rdOtr | .wrOtr | .loadOtr => .otr
  | .clrStr | .rdStr | .wrStr | .loadStr => .str

/-- The instruction of an (operation, register) pair. -/
def instrOf : Op → Reg → Instr
  | .clear, .mdr0 => .clrMdr0
  | .clear, .mdr1 => .clrMdr1
  | .clear, .dtr => .clrDtr
  | .clear, .cntr => .clrCntr
  | .clear, .otr => .clrOtr
  | .clear, .str => .clrStr
  | .read, .mdr0 => .rdMdr0
  | .read, .mdr1 => .rdMdr1
  | .read, .dtr => .rdDtr
  | .read, .cntr => .rdCntr
  | .read, .otr => .rdOtr
  | .read, .str => .rdStr
  | .write, .mdr0 => .wrMdr0
  | .write, .mdr1 => .wrMdr1
  | .write, .dtr => .wrDtr
  | .write, .cntr => .wrCntr
  | .write, .otr => .wrOtr
  | .write, .str => .wrStr
  | .load, .mdr0 => .loadMdr0
  | .load, .mdr1 => .loadMdr1
  | .load, .dtr => .loadDtr
  | .load, .cntr => .loadCntr
  | .load, .otr => .loadOtr
  | .load, .str => .loadStr

/-- The admitted pairs: the "yes" entries of 10_state R26 (30_encoding R88). -/
def admitted : Op → Reg → Bool
  | .clear, .mdr0 => true
  | .clear, .mdr1 => true
  | .clear, .dtr => false
  | .clear, .cntr => true
  | .clear, .otr => false
  | .clear, .str => true
  | .read, .dtr => false
  | .read, _ => true
  | .write, .mdr0 => true
  | .write, .mdr1 => true
  | .write, .dtr => true
  | .write, _ => false
  | .load, .cntr => true
  | .load, .otr => true
  | .load, _ => false

/-- `is_wide(reg)` (41_codec R140). -/
def isWide : Reg → Bool
  | .dtr | .cntr | .otr => true
  | .mdr0 | .mdr1 | .str => false

/-- `ByteLen(reg, w)` (41_codec R140). -/
def byteLen (reg : Reg) (w : Width) : Nat := if isWide reg then w.bytes else 1

/-- The payload length of an instruction's frame at width `w` (30_encoding R86, R88). -/
def payloadLen (i : Instr) (w : Width) : Nat :=
  match opOf i with
  | .clear | .load => 0
  | .read | .write => byteLen (regOf i) w

/-- Why a byte is no instruction byte (30_encoding R90). -/
inductive DecodeError where
  /-- there is no byte -/
  | noByte
  /-- bits [2:0] are not 000 -/
  | lowBits (b : Byte)
  /-- the select is 000 -/
  | selectZero (b : Byte)
  /-- the select is the one that no register takes: 110, or 111 when `STATUS_CODE = 0x30` -/
  | selectUnused (b : Byte)
deriving DecidableEq, Repr

/-- The operation in bits [7:6] (30_encoding R81). -/
def opOfBits (b : Byte) : Op :=
  if b.extractLsb' 6 2 = 0 then .clear
  else if b.extractLsb' 6 2 = 1 then .read
  else if b.extractLsb' 6 2 = 2 then .write
  else .load

/-- The register of a select, bits [5:3] (20_memory R50); none where no register takes it. -/
def regOfSelect (p : Params) (sel : BitVec 3) : Option Reg :=
  if sel = 1 then some .mdr0
  else if sel = 2 then some .mdr1
  else if sel = 3 then some .dtr
  else if sel = 4 then some .cntr
  else if sel = 5 then some .otr
  else if sel = (statusByte p.statusCode).extractLsb' 3 3 then some .str
  else none

/-- What an observer makes of one instruction byte (30_encoding R85, R90). -/
def decodeByte (p : Params) (b : Byte) : Except DecodeError Instr :=
  if b.extractLsb' 0 3 ≠ 0 then .error (.lowBits b)
  else if b.extractLsb' 3 3 = 0 then .error (.selectZero b)
  else
    match regOfSelect p (b.extractLsb' 3 3) with
    | some r => .ok (instrOf (opOfBits b) r)
    | none => .error (.selectUnused b)

/-- The decoder: the instruction of the first byte, and the bytes after it. Total on any bytes. -/
def decode (p : Params) : List Byte → Except DecodeError (Instr × List Byte)
  | [] => .error .noByte
  | b :: rest =>
    match decodeByte p b with
    | .ok i => .ok (i, rest)
    | .error e => .error e

/-- The encoder of an instruction: its one byte (30_encoding R80, R84). -/
def encode (p : Params) (i : Instr) : List Byte := [encodeByte p (opOf i) (regOf i)]

/-- The bytes of a frame: the instruction byte, then the payload (30_encoding R86). -/
def encodeFrame (p : Params) (f : Frame) : List Byte := encode p f.instr ++ f.payload

/-- One frame off the front of a byte stream, for an observer that knows the width in force (30_encoding R91). -/
def decodeFrame (p : Params) (w : Width) (bs : List Byte) : Option (Frame × List Byte) :=
  match decode p bs with
  | .error _ => none
  | .ok (i, rest) =>
    if payloadLen i w ≤ rest.length then
      some ({ instr := i, payload := rest.take (payloadLen i w) }, rest.drop (payloadLen i w))
    else none

/-- A byte stream split into at most `fuel` frames; none where bytes are left over or are no frame (30_encoding R91). -/
def splitFrames (p : Params) (w : Width) : Nat → List Byte → Option (List Frame)
  | _, [] => some []
  | 0, _ :: _ => none
  | fuel + 1, b :: rest =>
    match decodeFrame p w (b :: rest) with
    | none => none
    | some (f, rest') => (splitFrames p w fuel rest').map (f :: ·)

/-- The longest frame: an instruction byte and four payload bytes (20_memory R57). -/
def longestFrame : Nat := 5

/-- Bits 8j to 8j+7 of `w`, for the bytes of a frame as the opcode table numbers them. -/
def tableBytes (nbits w : Nat) : List Byte :=
  (List.range longestFrame).map fun j => BitVec.ofNat 8 ((w % 2 ^ nbits) >>> (8 * j))

/-- The instruction read from a word of the opcode table, at the default parameters. -/
def decodeTableWord (nbits w : Nat) : Option Instr :=
  match decode Params.standard (tableBytes nbits w) with
  | .ok (i, _) => some i
  | .error _ => none

end Sys2Proof
end

