-- ==== Sys2Proof/Machine/Operands.lean ====
section
/-! DEFINITION. Operand assembly (30_encoding R87): byte order, the signed count, and the fields of the mode and
status registers with their maps (10_state R30). -/

namespace Sys2Proof.Machine

/-- `BE(v, n)`: the n low bytes of `v`, most significant first (00_scope R11). -/
def be (v : Nat) : Nat → List Byte
  | 0 => []
  | n + 1 => BitVec.ofNat 8 (v >>> (8 * n)) :: be v n

/-- `unBE(s)` (00_scope R11). -/
def unBE (bs : List Byte) : Nat := bs.foldl (fun acc b => (acc <<< 8) ||| b.toNat) 0

/-- `zeros(n)` (00_scope R11). -/
def zeros (n : Nat) : List Byte := List.replicate n 0x00

/-- `decode_signed(raw, w)` (41_codec R150). -/
def decodeSigned (raw : Nat) (w : Width) : Int :=
  if raw.testBit (w.bits - 1) then (raw : Int) - 2 ^ w.bits else raw

/-- `encode_signed(v, w) = v mod 2^w` (41_codec R151). -/
def encodeSigned (v : Int) (w : Width) : Nat := (v % (2 ^ w.bits : Int)).toNat

/-- The holder of a field (10_state R27 to R30). -/
def holder : Field → Reg
  | .quadrature | .countMode | .indexMode | .indexSync | .filterDiv => .mdr0
  | .bits | .enabled | .flagSources => .mdr1
  | .sign | .direction | .powerLoss | .countEnableEcho
  | .indexLatch | .compareLatch | .borrowLatch | .carryLatch => .str

/-- The width of a field in bits (10_state R27 to R30). -/
def fieldWidth : Field → Nat
  | .quadrature | .countMode | .indexMode | .bits => 2
  | .flagSources => 4
  | .indexSync | .filterDiv | .enabled
  | .sign | .direction | .powerLoss | .countEnableEcho
  | .indexLatch | .compareLatch | .borrowLatch | .carryLatch => 1

/-- `mask = 2^width - 1` (10_state R30). -/
def fieldMask (f : Field) : Nat := 2 ^ fieldWidth f - 1

/-- `acc(f) = RO`: the fields of STR can only be read (10_state R29, R30). -/
def readOnly (f : Field) : Bool := holder f = .str

/-- The lowest bit of a field under a layout (10_state R30). -/
def shiftOf (l : Layout) : Field → Nat
  | .quadrature => l.quadrature
  | .countMode => l.countMode
  | .indexMode => l.indexMode
  | .indexSync => l.indexSync
  | .filterDiv => l.filterDiv
  | .bits => l.bits
  | .enabled => l.enabled
  | .flagSources => l.flagSources
  | .sign => l.sign
  | .direction => l.direction
  | .powerLoss => l.powerLoss
  | .countEnableEcho => l.countEnableEcho
  | .indexLatch => l.indexLatch
  | .compareLatch => l.compareLatch
  | .borrowLatch => l.borrowLatch
  | .carryLatch => l.carryLatch

/-- `WIDTH_OF(code)`, total on the four codes (10_state R32). -/
def widthOfCode (t : WidthOf) (code : Nat) : Width :=
  if code = 0 then t.c00 else if code = 1 then t.c01 else if code = 2 then t.c10 else t.c11

/-- `WIDTH_OF^-1(w)` (42_mode_fields R195). -/
def codeOfWidth (t : WidthOf) (w : Width) : Nat :=
  if t.c00 = w then 0 else if t.c01 = w then 1 else if t.c10 = w then 2 else 3

/-- The `map` column of 10_state R30: logical value and code. -/
def fieldMap (p : Params) : Field → List (Logical × Nat)
  | .quadrature => [(.int 0, 0), (.int 1, 1), (.int 2, 2), (.int 4, 3)]
  | .countMode =>
    [(.option .freeRun, 0), (.option .singleCycle, 1), (.option .rangeLimit, 2), (.option .moduloN, 3)]
  | .indexMode =>
    [(.option .disabled, 0), (.option .loadCntr, 1), (.option .resetCntr, 2), (.option .loadOtr, 3)]
  | .indexSync => [(.option .asynchronous, 0), (.option .synchronous, 1)]
  | .filterDiv => [(.int 1, 0), (.int 2, 1)]
  | .bits =>
    [(.int 8, codeOfWidth p.widthOf .w8), (.int 16, codeOfWidth p.widthOf .w16),
     (.int 24, codeOfWidth p.widthOf .w24), (.int 32, codeOfWidth p.widthOf .w32)]
  | .enabled => [(.bool true, 0), (.bool false, 1)]
  | .flagSources => (List.range 16).map fun n : Nat => (Logical.int n, n)
  | .sign | .direction | .powerLoss | .countEnableEcho
  | .indexLatch | .compareLatch | .borrowLatch | .carryLatch => [(.bool false, 0), (.bool true, 1)]

/-- `domain(f)`: the logical values of the map (42_mode_fields R180). The order of the list says nothing
(DESIGN CHOICE, log entry 13). -/
def domain (p : Params) (f : Field) : List Logical := (fieldMap p f).map Prod.fst

/-- `code(f, x)`, absent outside the domain (42_mode_fields R180). -/
def codeOf (p : Params) (f : Field) (x : Logical) : Option Nat := (fieldMap p f).lookup x

/-- `logical(f, c)`: the value a code stands for (42_mode_fields R180, R190 to R207). -/
def logicalOf (p : Params) (f : Field) (c : Nat) : Logical :=
  match f with
  | .quadrature => .int (if c = 0 then 0 else if c = 1 then 1 else if c = 2 then 2 else 4)
  | .countMode =>
    .option (if c = 0 then .freeRun else if c = 1 then .singleCycle else if c = 2 then .rangeLimit else .moduloN)
  | .indexMode =>
    .option (if c = 0 then .disabled else if c = 1 then .loadCntr else if c = 2 then .resetCntr else .loadOtr)
  | .indexSync => .option (if c = 0 then .asynchronous else .synchronous)
  | .filterDiv => .int (if c = 0 then 1 else 2)
  | .bits => .int (widthOfCode p.widthOf c).bits
  | .enabled => .bool (c = 0)
  | .flagSources => .int c
  | .sign | .direction | .powerLoss | .countEnableEcho
  | .indexLatch | .compareLatch | .borrowLatch | .carryLatch => .bool (c = 1)

/-- The bits of a field in place: `mask(f) << shift(f)` as a byte. -/
def placedMask (p : Params) (f : Field) : Byte := BitVec.ofNat 8 (fieldMask f) <<< shiftOf p.layout f

/-- `(b >> shift(f)) & mask(f)` (42_mode_fields R182). -/
def fieldCode (p : Params) (f : Field) (b : Byte) : Nat :=
  ((b >>> shiftOf p.layout f) &&& BitVec.ofNat 8 (fieldMask f)).toNat

/-- The value `GET_FIELD(f)` makes of the holder byte (42_mode_fields R182). -/
def fieldValue (p : Params) (f : Field) (b : Byte) : Logical := logicalOf p f (fieldCode p f b)

/-- The merged byte `new` of 42_mode_fields R183. -/
def mergeField (p : Params) (f : Field) (c : Nat) (b : Byte) : Byte :=
  (b &&& ~~~ placedMask p f) ||| (BitVec.ofNat 8 c <<< shiftOf p.layout f)

/-- The counter width an MDR1 byte names (10_state R32, 41_codec R141). -/
def widthOfByte (p : Params) (b : Byte) : Width := widthOfCode p.widthOf (fieldCode p .bits b)

end Sys2Proof.Machine
end

