-- ==== Sys2Proof/Machine/Device.lean ====
section
/-! DEFINITION. The reference device of 20_memory R70 and R71: its power-on registers, its response to a frame, and its
registers after one. -/

namespace Sys2Proof.Machine

/-- The device's registers after power-on (20_memory R71). -/
def powerOnDevice (p : Params) : Device where
  mdr0 := p.porMdr0
  mdr1 := p.porMdr1
  dtr := 0
  cntr := 0
  otr := 0
  str := p.porStr

/-- The byte length of a wide register for the device, "evaluated when the frame arrives" (20_memory R70). -/
def deviceBytes (p : Params) (d : Device) : Nat := (widthOfByte p d.mdr1).bytes

/-- `n` free bytes at transaction `k`: a response that R70 leaves unspecified (log entry 8). -/
def freeBytes (k n : Nat) : List Byte := (List.range n).map (Config.freeByte k)

/-- A response of the right form, or free bytes where the frame is not one that R70 answers. -/
def answerIf (k : Nat) (filler : List Byte) (n : Nat) (rx : List Byte) : List Byte :=
  if filler = zeros n then rx else freeBytes k filler.length

/-- The response bytes after the echo slot, by instruction (20_memory R70, the Exchange lines). -/
def responseTo (p : Params) (k : Nat) (d : Device) (filler : List Byte) : Instr → List Byte
  | .rdMdr0 => answerIf k filler 1 [d.mdr0]
  | .rdMdr1 => answerIf k filler 1 [d.mdr1]
  | .rdStr => answerIf k filler 1 [d.str]
  | .rdCntr =>
    answerIf k filler (deviceBytes p d) (be (d.cntr.toNat % 2 ^ (8 * deviceBytes p d)) (deviceBytes p d))
  | .rdOtr =>
    answerIf k filler (deviceBytes p d) (be (d.otr.toNat % 2 ^ (8 * deviceBytes p d)) (deviceBytes p d))
  | .clrMdr0 | .clrMdr1 | .clrDtr | .clrCntr | .clrOtr | .clrStr
  | .rdDtr
  | .wrMdr0 | .wrMdr1 | .wrDtr | .wrCntr | .wrOtr | .wrStr
  | .loadMdr0 | .loadMdr1 | .loadDtr | .loadCntr | .loadOtr | .loadStr => freeBytes k filler.length

/-- The response of the device to an Exchange of `out`, after the echo slot. -/
def deviceResponse (p : Params) (k : Nat) (d : Device) : List Byte → List Byte
  | [] => []
  | b :: filler =>
    match decodeByte p b with
    | .ok i => responseTo p k d filler i
    | .error _ => freeBytes k filler.length

/-- The byte a one-byte register takes from a payload; a payload of another length is never sent (log entry 8). -/
def payloadByte (k : Nat) : List Byte → Byte
  | [b] => b
  | [] => Config.freeByte k 0
  | _ :: _ :: _ => Config.freeByte k 0

/-- The device's registers after a frame, by instruction (20_memory R70, the Write lines; R59). A read changes none. -/
def afterInstr (p : Params) (k : Nat) (d : Device) (payload : List Byte) : Instr → Device
  | .clrMdr0 => { d with mdr0 := p.porMdr0 }
  | .clrMdr1 => { d with mdr1 := p.porMdr1 }
  | .clrCntr => { d with cntr := 0 }
  | .clrStr => { d with str := 0 }
  | .wrMdr0 => { d with mdr0 := payloadByte k payload }
  | .wrMdr1 => { d with mdr1 := payloadByte k payload }
  | .wrDtr =>
    { d with dtr := if payload.length = deviceBytes p d then BitVec.ofNat 32 (unBE payload) else Config.freeWord k }
  | .loadCntr => { d with cntr := d.dtr }
  | .loadOtr => { d with otr := d.cntr }
  | .clrDtr | .clrOtr
  | .rdMdr0 | .rdMdr1 | .rdDtr | .rdCntr | .rdOtr | .rdStr
  | .wrCntr | .wrOtr | .wrStr
  | .loadMdr0 | .loadMdr1 | .loadDtr | .loadStr => d

/-- The device's registers after the frame `out` has reached it. -/
def deviceAfter (p : Params) (k : Nat) (d : Device) : List Byte → Device
  | [] => d
  | b :: payload =>
    match decodeByte p b with
    | .ok i => afterInstr p k d payload i
    | .error _ => d

/-- What the device's registers are once `change` has happened (20_memory R62, R64). -/
def applyChange (c : DevChange) (d : Device) : Device :=
  match c with
  | .quiet => d
  | .activity cntr otr str => { d with cntr := cntr, otr := otr, str := str }
  | .foreign d' => d'

end Sys2Proof.Machine
end

