-- ==== Sys2Proof/Machine/State.lean ====
section
/-! DEFINITION. The state of the block, its two ports, the attached device and the parameters; why the machine may
stop; the state after reset. -/

namespace Sys2Proof.Machine

/-- The block's whole state (10_state R22). -/
inductive Block where
  | idle
  | busy (cmd : Command) (step : Nat) (w : Option Width) (held : Option Byte)
deriving DecidableEq, Repr

/-- The value of a normal result (00_scope R14, 10_state R23). -/
inductive Value where
  | unit
  | byte (b : Byte)
  | nat (n : Nat)
  | int (i : Int)
  | logical (x : Logical)
deriving DecidableEq, Repr

/-- Why a command is refused (60_exceptions R234). -/
inductive RefuseReason where
  | unadmittedPair (op : Op) (reg : Reg)
  | valueTooWide
  | readOnlyField (f : Field)
deriving DecidableEq, Repr

/-- The outcomes of a command, exactly those of 60_exceptions R230. -/
inductive Result where
  | ok (v : Value)
  | invalidArgument (f : Field) (domain : List Logical)
  | transportError (e : ErrorToken)
  | lengthMismatch (sent received : Nat)
  | refused (r : RefuseReason)
deriving DecidableEq, Repr

/-- The two channel primitives (00_scope R12). -/
inductive Primitive where
  | exchange | write
deriving DecidableEq, Repr

/-- How a channel primitive ended (00_scope R12, 93 I9). A Write returns no bytes. -/
inductive Reply where
  | returned (rx : List Byte)
  | failed (e : ErrorToken)
  | silent
deriving DecidableEq, Repr

/-- One transaction on the channel port: what went out and how it returned (10_state R24). -/
structure Transaction where
  prim : Primitive
  out : List Byte
  reply : Reply
deriving DecidableEq, Repr

/-- Who answers when no draw is waiting in `env` (log entry 1). -/
inductive World where
  /-- the unconstrained channel of 20_memory R62: `Config.freeDraw` -/
  | free
  /-- the reference device of 20_memory R70, which never fails a transaction -/
  | reference
deriving DecidableEq, Repr

/-- The state: the block (10_state R22), its command port and channel port (R23, R24), the device's registers (R25), the
parameters (00_scope R6), and the model's own fields `env`, `world` and `drawn` (log entries 1, 4, 9). -/
structure State where
  params : Params
  block : Block
  requests : List Command
  results : List (Command × Result)
  bus : List Transaction
  env : List Draw
  world : World
  dev : Device
  drawn : Nat
deriving DecidableEq, Repr

/-- Why a step stops the machine. No outcome of a command does; both constructors are for states that no run
reaches (log entry 14). -/
inductive Fault where
  /-- Raised by a meaning whose instruction byte is not the current transaction of the command in progress: "Every
  instruction byte here is emitted only from inside a command" (40_encoder, opening). Safe: it stops. -/
  | notCurrent
  /-- Raised by a step or a meaning in a `Busy` that no command leads to: a step index past the command's last
  transaction, a wide transfer with no latched width, a merge with no held byte or no code. Safe: it stops. -/
  | illFormedBusy
deriving DecidableEq, Repr

/-- Why a step refuses. -/
inductive Refusal where
  /-- Raised by an arm of `exec` whose instruction has no meaning yet; none is left. Safe: it stops. -/
  | notModelled (mnemonic : String)
deriving DecidableEq, Repr

/-- After reset: `Idle`, no command, no latched width, no held byte, no transaction issued (10_state R35,
70 R260, R261); the default parameters; the device as in 20_memory R71 with `POR_STR` of log entry 2; an unconstrained
channel (10_state R36, log entry 1). -/
def State.reset : State where
  params := .standard
  block := .idle
  requests := []
  results := []
  bus := []
  env := []
  world := .free
  dev := powerOnDevice .standard
  drawn := 0

end Sys2Proof.Machine
end

