-- ==== Sys2Proof/Machine/Commands.lean ====
section
/-! DEFINITION. Commands: the checks before any transaction (60_exceptions R235) and the fixed sequence of instruction
bytes of each (10_state R21, 70 R280). -/

namespace Sys2Proof.Machine

/-- The outcome a command ends in before any transaction and without naming an instruction byte on the channel: `ENCODE`'s byte
(40_encoder R110), `ValueTooWide` (41_codec R144), `ReadOnlyField` and `InvalidArgument` (42_mode_fields R181, in that order).
A pair that is not admitted comes before `ValueTooWide` (DEDUCED, log entry 7) and is refused by the meaning of its byte. -/
def verdict (p : Params) : Command → Option Result
  | .encode op reg => some (.ok (.byte (encodeByte p op reg)))
  | .writeReg reg v =>
    if admitted .write reg && decide (2 ^ p.valueBits ≤ v) then some (.refused .valueTooWide) else none
  | .setField f x =>
    if readOnly f then some (.refused (.readOnlyField f))
    else
      match codeOf p f x with
      | some _ => none
      | none => some (.invalidArgument f (domain p f))
  | .readReg _ | .load _ | .clear _ | .getCounts | .setCounts _ | .getField _ => none

/-- A raw register access: the width query first where an admitted register is wide (41_codec R141, R145, R146). A pair that is
not admitted stands alone: its byte's meaning is the refusal, and no transaction is issued (R144). -/
def rawProgram (op : Op) (reg : Reg) : List (Op × Reg) :=
  if admitted op reg && isWide reg then [(.read, .mdr1), (op, reg)] else [(op, reg)]

/-- The instruction bytes of a command, in order (41_codec R145 to R148, R152, R153; 42_mode_fields R182, R183). -/
def program : Command → List (Op × Reg)
  | .encode _ _ => []
  | .readReg reg => rawProgram .read reg
  | .writeReg reg _ => rawProgram .write reg
  | .load reg => [(.load, reg)]
  | .clear reg => [(.clear, reg)]
  | .getCounts => [(.read, .mdr1), (.read, .cntr)]
  | .setCounts _ => [(.read, .mdr1), (.write, .dtr), (.load, .cntr)]
  | .getField f => [(.read, holder f)]
  | .setField f _ => [(.read, holder f), (.write, holder f)]

/-- The (operation, register) pair of the current transaction of the command in progress (10_state R21). -/
def State.current (s : State) : Option (Op × Reg) :=
  match s.block with
  | .idle => none
  | .busy c k _ _ => (program c)[k]?

/-- The instruction byte the current transaction opens with (30_encoding R80, R84). -/
def State.currentByte (s : State) : Option Byte :=
  match s.current with
  | some (op, reg) => some (encodeByte s.params op reg)
  | none => none

/-- The value the current write frame carries: the operand of `WRITE_REG` (41_codec R146), the pattern of `SET_COUNTS` at
the latched width (R153), or the merged byte of `SET_FIELD` (42_mode_fields R183). -/
def State.writeValue (s : State) : Option Nat :=
  match s.block with
  | .idle => none
  | .busy c _ w held =>
    match c with
    | .writeReg _ v => some v
    | .setCounts v => w.map (encodeSigned v)
    | .setField f x =>
      match held, codeOf s.params f x with
      | some b, some code => some (mergeField s.params f code b).toNat
      | some _, none => none
      | none, _ => none
    | .encode _ _ | .readReg _ | .load _ | .clear _ | .getCounts | .getField _ => none

/-- The latched width of the command in progress (10_state R22). -/
def State.latched (s : State) : Option Width :=
  match s.block with
  | .idle => none
  | .busy _ _ w _ => w

/-- The byte length of a register in the command in progress: `w/8` at the latched width for a wide one, else 1
(41_codec R140, R149). -/
def State.transferBytes (s : State) (reg : Reg) : Option Nat :=
  if isWide reg then s.latched.map Width.bytes else some 1

end Sys2Proof.Machine
end

