-- ==== Sys2Proof/Machine/Ops.lean ====
section
/-! DEFINITION. The shared operations: one channel transaction, delivering an outcome (normal or error: the block's trap entry,
60_exceptions R236), going on to the next transaction, and the frames of 30_encoding R86. -/

namespace Sys2Proof.Machine

/-- What the environment does at the coming transaction: the next draw waiting, or else the world's own. -/
def State.nextDraw (s : State) : Draw :=
  match s.env with
  | d :: _ => d
  | [] =>
    match s.world with
    | .free => Config.freeDraw s.drawn
    | .reference => { change := .quiet, answer := .device (Config.freeEcho s.drawn) }

/-- The device's registers when the frame arrives (20_memory R62: the device may have changed some on its own). -/
def State.arrival (s : State) : Device := applyChange s.nextDraw.change s.dev

/-- How the channel primitive `prim` on `out` ends (00_scope R12). A Write returns no bytes. -/
def State.reply (s : State) (prim : Primitive) (out : List Byte) : Reply :=
  match s.nextDraw.answer with
  | .device echo =>
    match prim with
    | .exchange => .returned (echo :: deviceResponse s.params s.drawn s.arrival out)
    | .write => .returned []
  | .respond rx =>
    match prim with
    | .exchange => .returned rx
    | .write => .returned []
  | .fail e _ => .failed e
  | .silent => .silent

/-- The device's registers after the transaction: a failed one may or may not have reached it (93 I6). -/
def State.landing (s : State) (out : List Byte) : Device :=
  match s.nextDraw.answer with
  | .device _ | .respond _ => deviceAfter s.params s.drawn s.arrival out
  | .fail _ landed => if landed then deviceAfter s.params s.drawn s.arrival out else s.arrival
  | .silent => s.dev

/-- The state once the transaction has returned or failed: it is on the bus, the draw is used up, the device has reacted.
The block itself is as before. -/
def State.transacted (s : State) (prim : Primitive) (out : List Byte) : State :=
  { s with
    bus := { prim := prim, out := out, reply := s.reply prim out } :: s.bus
    env := s.env.tail
    drawn := s.drawn + 1
    dev := s.landing out }

/-- Delivering an outcome on the command port, normal or error (10_state R22, 60_exceptions R236): the command's result is returned, the
latched width and held byte are dropped, the block is `Idle`. There is no return operation (R237): the next command starts
from `Idle`. -/
def State.deliver (s : State) (r : Result) : State :=
  { s with
    block := .idle
    results :=
      match s.block with
      | .idle => s.results
      | .busy c _ _ _ => (c, r) :: s.results }

/-- Going on to the command's next transaction: the step index advances by one, with the latched width and held byte given
(10_state R21). -/
def State.advance (s : State) (w : Option Width) (held : Option Byte) : State :=
  { s with
    block :=
      match s.block with
      | .idle => .idle
      | .busy c k _ _ => .busy c (k + 1) w held }

/-- The width query's end: the width is latched for the rest of the command (41_codec R141). -/
def State.latch (s : State) (v : Nat) : State :=
  s.advance (some (widthOfByte s.params (BitVec.ofNat 8 v))) none

/-- What a command does with the value `v` that its read transaction returned: a width query latches (41_codec R141), `READ_REG`
returns it (R145), `GET_COUNTS` decodes its sign at the latched width (R152), `GET_FIELD` extracts the field (42_mode_fields
R182), `SET_FIELD` holds it (R183). -/
def State.afterRead (s : State) (v : Nat) : Host.Outcome State Fault Refusal :=
  match s.block with
  | .idle => .fault .illFormedBusy
  | .busy c k w _ =>
    match c with
    | .readReg reg => if isWide reg && k == 0 then .next (s.latch v) else .next (s.deliver (.ok (.nat v)))
    | .writeReg _ _ => .next (s.latch v)
    | .setCounts _ => .next (s.latch v)
    | .getCounts =>
      if k = 0 then .next (s.latch v)
      else
        match w with
        | some w => .next (s.deliver (.ok (.int (decodeSigned v w))))
        | none => .fault .illFormedBusy
    | .getField f => .next (s.deliver (.ok (.logical (fieldValue s.params f (BitVec.ofNat 8 v)))))
    | .setField _ _ => .next (s.advance none (some (BitVec.ofNat 8 v)))
    | .encode _ _ | .load _ | .clear _ => .fault .illFormedBusy

/-- What a command does when its write or control transaction has completed: it goes on to the next one, or returns `Ok()`
(41_codec R146 to R148, R153; 42_mode_fields R183). -/
def State.afterWrite (s : State) : State :=
  match s.block with
  | .idle => s
  | .busy c k w held =>
    if k + 1 < (program c).length then s.advance w held else s.deliver (.ok .unit)

/-- A transaction's end. It failed: `TransportError`, unchanged (60_exceptions R232). It never returned: the block waits, nothing
changes (93 I9, log entry 5). An Exchange returned: its length is checked (41_codec R142, 60_exceptions R233), the first byte is
dropped, the rest is the value. A Write completed: the command goes on. -/
def State.transact (s : State) (prim : Primitive) (out : List Byte) : Host.Outcome State Fault Refusal :=
  match s.reply prim out with
  | .silent => .next s
  | .failed e => .next ((s.transacted prim out).deliver (.transportError e))
  | .returned rx =>
    match prim with
    | .write => .next (s.transacted prim out).afterWrite
    | .exchange =>
      if rx.length = out.length then (s.transacted prim out).afterRead (unBE rx.tail)
      else .next ((s.transacted prim out).deliver (.lengthMismatch out.length rx.length))

/-- The read frame `[encode(Read, reg)] ++ zeros(n)` (30_encoding R86). -/
def readFrame (p : Params) (reg : Reg) (n : Nat) : List Byte := encodeByte p .read reg :: zeros n

/-- The write frame `[encode(Write, reg)] ++ BE(v mod 2^(8n), n)` (30_encoding R86, 41_codec R143). -/
def writeFrame (p : Params) (reg : Reg) (n v : Nat) : List Byte :=
  encodeByte p .write reg :: be (v % 2 ^ (8 * n)) n

/-- The control frame `[encode(op, reg)]` (40_encoder R125). -/
def ctrlFrame (p : Params) (op : Op) (reg : Reg) : List Byte := [encodeByte p op reg]

/-- `ReadFrame(reg, n)` as the current transaction (41_codec R142). -/
def runRead (reg : Reg) (s : State) : Host.Outcome State Fault Refusal :=
  if s.current = some (.read, reg) then
    match s.transferBytes reg with
    | some n => s.transact .exchange (readFrame s.params reg n)
    | none => .fault .illFormedBusy
  else .fault .notCurrent

/-- `WriteFrame(reg, n, v)` as the current transaction (41_codec R143). -/
def runWrite (reg : Reg) (s : State) : Host.Outcome State Fault Refusal :=
  if s.current = some (.write, reg) then
    match s.transferBytes reg, s.writeValue with
    | some n, some v => s.transact .write (writeFrame s.params reg n v)
    | some _, none => .fault .illFormedBusy
    | none, _ => .fault .illFormedBusy
  else .fault .notCurrent

/-- `CtrlFrame(op, reg)` as the current transaction (40_encoder R125). -/
def runControl (op : Op) (reg : Reg) (s : State) : Host.Outcome State Fault Refusal :=
  if s.current = some (op, reg) then s.transact .write (ctrlFrame s.params op reg)
  else .fault .notCurrent

/-- The refusal of a pair that is not admitted: delivered on the command port, no transaction, nothing else changes
(60_exceptions R234). -/
def refusePair (op : Op) (reg : Reg) (s : State) : Host.Outcome State Fault Refusal :=
  if s.current = some (op, reg) then .next (s.deliver (.refused (.unadmittedPair op reg)))
  else .fault .notCurrent

/-- Accepting the nearest command (10_state R22): the block enters `Busy` at step 0; a command that ends before any instruction byte
(60_exceptions R235) is answered at once and the block is `Idle` again (log entry 6). With no command the block waits. -/
def State.accept (s : State) : State :=
  match s.requests with
  | [] => s
  | c :: rest =>
    match verdict s.params c with
    | none => { s with block := .busy c 0 none none, requests := rest }
    | some r => { s with requests := rest, results := (c, r) :: s.results }

/-- The instruction of the byte that the current transaction opens with (30_encoding R85). -/
def State.fetch (s : State) : Option Instr :=
  match s.currentByte with
  | none => none
  | some b =>
    match decodeByte s.params b with
    | .ok i => some i
    | .error _ => none

/-- The raw command that names an instruction's pair, with the operand zero (10_state R23). -/
def rawCommand (i : Instr) : Command :=
  match opOf i with
  | .clear => .clear (regOf i)
  | .read => .readReg (regOf i)
  | .write => .writeReg (regOf i) 0
  | .load => .load (regOf i)

/-- The `Busy` form in which `i` is the current transaction of its raw command: the last of the command's program, with the width of
the device's MDR1 latched where a width query has gone before it. -/
def rawBusy (s : State) (i : Instr) : Block :=
  if (program (rawCommand i)).length = 2 then
    .busy (rawCommand i) 1 (some (widthOfByte s.params s.dev.mdr1)) none
  else .busy (rawCommand i) 0 none none

/-- `s` about to run `i`, with a device that answers it (log entry 18). -/
def State.placeInstr (s : State) (i : Instr) : State :=
  { s with
    block := rawBusy s i
    env :=
      if admitted (opOf i) (regOf i) then { change := .quiet, answer := .device 0x00 } :: s.env else s.env }

end Sys2Proof.Machine
end

