-- ==== Sys2Proof/Machine/Clear.lean ====
section
/-! DEFINITION. CLR: the control frames of 40_encoder R111 to R114, and the two pairs that are not admitted (30_encoding R89). -/

namespace Sys2Proof.Machine

/-- CLR MDR0 (40_encoder R111). On the device MDR0 takes its power-on default. -/
def execClrMdr0 (s : State) : Host.Outcome State Fault Refusal := runControl .clear .mdr0 s

/-- CLR MDR1 (40_encoder R112). On the device MDR1 takes its power-on default, so the width may change. -/
def execClrMdr1 (s : State) : Host.Outcome State Fault Refusal := runControl .clear .mdr1 s

/-- CLR DTR: not admitted; the command that names it is refused with no transaction (30_encoding R89, 60_exceptions R234). -/
def execClrDtr (s : State) : Host.Outcome State Fault Refusal := refusePair .clear .dtr s

/-- CLR CNTR (40_encoder R113). On the device CNTR becomes zero; DTR and OTR are not changed. -/
def execClrCntr (s : State) : Host.Outcome State Fault Refusal := runControl .clear .cntr s

/-- CLR OTR: not admitted; the command that names it is refused with no transaction (30_encoding R89, 60_exceptions R234). -/
def execClrOtr (s : State) : Host.Outcome State Fault Refusal := refusePair .clear .otr s

/-- CLR STR (40_encoder R114). On the device STR becomes zero. -/
def execClrStr (s : State) : Host.Outcome State Fault Refusal := runControl .clear .str s

end Sys2Proof.Machine
end

