-- ==== Sys2Proof/Machine/Load.lean ====
section
/-! DEFINITION. LOAD: the control frames of 40_encoder R123 and R124, and the four pairs that are not admitted (30_encoding R89). -/

namespace Sys2Proof.Machine

/-- LOAD MDR0: not admitted; the command that names it is refused with no transaction (30_encoding R89, 60_exceptions R234). -/
def execLoadMdr0 (s : State) : Host.Outcome State Fault Refusal := refusePair .load .mdr0 s

/-- LOAD MDR1: not admitted; the command that names it is refused with no transaction (30_encoding R89, 60_exceptions R234). -/
def execLoadMdr1 (s : State) : Host.Outcome State Fault Refusal := refusePair .load .mdr1 s

/-- LOAD DTR: not admitted; the command that names it is refused with no transaction (30_encoding R89, 60_exceptions R234). -/
def execLoadDtr (s : State) : Host.Outcome State Fault Refusal := refusePair .load .dtr s

/-- LOAD CNTR (40_encoder R123). On the device DTR goes to CNTR. -/
def execLoadCntr (s : State) : Host.Outcome State Fault Refusal := runControl .load .cntr s

/-- LOAD OTR (40_encoder R124). On the device CNTR goes to OTR. -/
def execLoadOtr (s : State) : Host.Outcome State Fault Refusal := runControl .load .otr s

/-- LOAD STR: not admitted; the command that names it is refused with no transaction (30_encoding R89, 60_exceptions R234). -/
def execLoadStr (s : State) : Host.Outcome State Fault Refusal := refusePair .load .str s

end Sys2Proof.Machine
end

