-- ==== Sys2Proof/Machine/Read.lean ====
section
/-! DEFINITION. RD: the read frames of 40_encoder R115 to R119, and the pair that is not admitted (30_encoding R89). -/

namespace Sys2Proof.Machine

/-- RD MDR0 (40_encoder R115). One byte, no width query. -/
def execRdMdr0 (s : State) : Host.Outcome State Fault Refusal := runRead .mdr0 s

/-- RD MDR1 (40_encoder R116). One byte; also the width query of every wide-register command (41_codec R141). -/
def execRdMdr1 (s : State) : Host.Outcome State Fault Refusal := runRead .mdr1 s

/-- RD DTR: not admitted; the command that names it is refused with no transaction (30_encoding R89, 60_exceptions R234). -/
def execRdDtr (s : State) : Host.Outcome State Fault Refusal := refusePair .read .dtr s

/-- RD CNTR (40_encoder R117). `w/8` bytes at the latched width. -/
def execRdCntr (s : State) : Host.Outcome State Fault Refusal := runRead .cntr s

/-- RD OTR (40_encoder R118). `w/8` bytes at the latched width. -/
def execRdOtr (s : State) : Host.Outcome State Fault Refusal := runRead .otr s

/-- RD STR (40_encoder R119). One byte, no width query. -/
def execRdStr (s : State) : Host.Outcome State Fault Refusal := runRead .str s

end Sys2Proof.Machine
end

