-- ==== Sys2Proof/Machine/Write.lean ====
section
/-! DEFINITION. WR: the write frames of 40_encoder R120 to R122, and the three pairs that are not admitted (30_encoding R89). -/

namespace Sys2Proof.Machine

/-- WR MDR0 (40_encoder R120). One byte, all five fields at once. -/
def execWrMdr0 (s : State) : Host.Outcome State Fault Refusal := runWrite .mdr0 s

/-- WR MDR1 (40_encoder R121). One byte; the width changes with it. -/
def execWrMdr1 (s : State) : Host.Outcome State Fault Refusal := runWrite .mdr1 s

/-- WR DTR (40_encoder R122). `w/8` bytes at the latched width, the value truncated to them. -/
def execWrDtr (s : State) : Host.Outcome State Fault Refusal := runWrite .dtr s

/-- WR CNTR: not admitted; the command that names it is refused with no transaction (30_encoding R89, 60_exceptions R234). -/
def execWrCntr (s : State) : Host.Outcome State Fault Refusal := refusePair .write .cntr s

/-- WR OTR: not admitted; the command that names it is refused with no transaction (30_encoding R89, 60_exceptions R234). -/
def execWrOtr (s : State) : Host.Outcome State Fault Refusal := refusePair .write .otr s

/-- WR STR: not admitted; the command that names it is refused with no transaction (30_encoding R89, 60_exceptions R234). -/
def execWrStr (s : State) : Host.Outcome State Fault Refusal := refusePair .write .str s

end Sys2Proof.Machine
end

