-- ==== Sys2Proof/Machine/Dispatch.lean ====
section
/-! DEFINITION. exec: one arm per instruction byte, in the order of Syntax. -/

namespace Sys2Proof.Machine

/-- The effect of an instruction byte as the current transaction of the command in progress. -/
def exec (i : Instr) (s : State) : Host.Outcome State Fault Refusal :=
  match i with
  | .clrMdr0 => Sys2Proof.Machine.execClrMdr0 s
  | .clrMdr1 => Sys2Proof.Machine.execClrMdr1 s
  | .clrDtr => Sys2Proof.Machine.execClrDtr s
  | .clrCntr => Sys2Proof.Machine.execClrCntr s
  | .clrOtr => Sys2Proof.Machine.execClrOtr s
  | .clrStr => Sys2Proof.Machine.execClrStr s
  | .rdMdr0 => Sys2Proof.Machine.execRdMdr0 s
  | .rdMdr1 => Sys2Proof.Machine.execRdMdr1 s
  | .rdDtr => Sys2Proof.Machine.execRdDtr s
  | .rdCntr => Sys2Proof.Machine.execRdCntr s
  | .rdOtr => Sys2Proof.Machine.execRdOtr s
  | .rdStr => Sys2Proof.Machine.execRdStr s
  | .wrMdr0 => Sys2Proof.Machine.execWrMdr0 s
  | .wrMdr1 => Sys2Proof.Machine.execWrMdr1 s
  | .wrDtr => Sys2Proof.Machine.execWrDtr s
  | .wrCntr => Sys2Proof.Machine.execWrCntr s
  | .wrOtr => Sys2Proof.Machine.execWrOtr s
  | .wrStr => Sys2Proof.Machine.execWrStr s
  | .loadMdr0 => Sys2Proof.Machine.execLoadMdr0 s
  | .loadMdr1 => Sys2Proof.Machine.execLoadMdr1 s
  | .loadDtr => Sys2Proof.Machine.execLoadDtr s
  | .loadCntr => Sys2Proof.Machine.execLoadCntr s
  | .loadOtr => Sys2Proof.Machine.execLoadOtr s
  | .loadStr => Sys2Proof.Machine.execLoadStr s

end Sys2Proof.Machine
end

