-- ==== Sys2Proof/Machine/Step.lean ====
section
/-! DEFINITION. One step of the block: it waits, accepts a command, or runs the current instruction byte. -/

namespace Sys2Proof.Machine

/-- One step. `Idle` with no command: the block waits (70 R260). `Idle` with a command: it is accepted (10_state R22). `Busy`: the
byte its current transaction opens with is formed (30_encoding R84) and the instruction it encodes runs. -/
def step (s : State) : Host.Outcome State Fault Refusal :=
  match s.block with
  | .idle => .next s.accept
  | .busy _ _ _ _ =>
    match s.fetch with
    | some i => exec i s
    | none => .fault .illFormedBusy

/-- `s` with the instruction of a word of the opcode table as the current transaction of a command in progress, and a draw by which the
attached device answers it (log entry 18). A word that is no instruction changes nothing. -/
def State.withFetchWord (s : State) (nbits w : Nat) : State :=
  match decodeTableWord nbits w with
  | some i => s.placeInstr i
  | none => s

end Sys2Proof.Machine
end

