-- ==== Sys2Proof/Machine/Flags.lean ====
section
/-! DEFINITION. Flags. The block has no flag register (10_state R34); the flags of the machine are the eight bits of the
device's STR, which the block reads (R29, 42_mode_fields R200 to R208). -/

namespace Sys2Proof.Machine

/-- A status flag of an STR byte: `(RD(STR) & (1 << shift)) != 0` (42_mode_fields R200 to R207). -/
def statusFlag (p : Params) (f : Field) (str : Byte) : Bool :=
  (str &&& ((1 : Byte) <<< shiftOf p.layout f)) ≠ 0

/-- The eight status flags at one instant. -/
structure StatusView where
  sign : Bool
  direction : Bool
  powerLoss : Bool
  countEnableEcho : Bool
  indexLatch : Bool
  compareLatch : Bool
  borrowLatch : Bool
  carryLatch : Bool
deriving DecidableEq, Repr

/-- All eight flags of one STR byte, as a caller decodes one `READ_REG(STR)` (42_mode_fields R208). -/
def statusView (p : Params) (str : Byte) : StatusView where
  sign := statusFlag p .sign str
  direction := statusFlag p .direction str
  powerLoss := statusFlag p .powerLoss str
  countEnableEcho := statusFlag p .countEnableEcho str
  indexLatch := statusFlag p .indexLatch str
  compareLatch := statusFlag p .compareLatch str
  borrowLatch := statusFlag p .borrowLatch str
  carryLatch := statusFlag p .carryLatch str

end Sys2Proof.Machine
end

