-- ==== Sys2Proof/WellFormed.lean ====
section
/-! DEFINITION. Well-formedness: of parameters (00_scope R6, R8) and of frames (30_encoding R86, 20_memory R57). An instruction
has no operand, so every term of Instr is well-formed (30_encoding R84). -/

namespace Sys2Proof

/-- Every instruction of the table is a pair the encoder is defined on: "total on all 24 pairs" (40_encoder R110). -/
def Instr.wellFormed (i : Instr) : Bool := instrOf (opOf i) (regOf i) = i

/-- `WIDTH_OF` is a bijection onto the four widths (10_state R30, 92 D3). -/
def WidthOf.bijective (t : WidthOf) : Bool :=
  [Width.w8, .w16, .w24, .w32].all fun w => [t.c00, t.c01, t.c10, t.c11].contains w

/-- Every field lies inside its holder byte. -/
def Layout.fits (l : Layout) : Bool :=
  Field.all.all fun f => Machine.shiftOf l f + Machine.fieldWidth f ≤ 8

/-- "No two fields of one holder overlap" (10_state R30). -/
def Layout.disjoint (l : Layout) : Bool :=
  Field.all.all fun f => Field.all.all fun g =>
    f = g || Machine.holder f ≠ Machine.holder g ||
      Machine.shiftOf l f + Machine.fieldWidth f ≤ Machine.shiftOf l g ||
      Machine.shiftOf l g + Machine.fieldWidth g ≤ Machine.shiftOf l f

/-- The legal parameters: 00_scope R6, 10_state R30; and `VALUE_BITS` holds every 32-bit result it is the width of
(DEDUCED from 30_encoding R87, log entry 16). -/
def Params.legal (p : Params) : Bool :=
  p.widthOf.bijective && p.layout.fits && p.layout.disjoint && 32 ≤ p.valueBits

/-- A frame the block may send at width `w`: an admitted byte (30_encoding R88) with a payload of the right length,
of zeros if it is a read frame (R86). -/
def Frame.wellFormed (w : Width) (f : Frame) : Bool :=
  admitted (opOf f.instr) (regOf f.instr) &&
  f.payload.length = payloadLen f.instr w &&
  (opOf f.instr ≠ .read || f.payload = Machine.zeros f.payload.length)

end Sys2Proof
end

