-- ==== Sys2Proof/Safety.lean ====
section
/-! DEFINITION. What counts as a safe run: the invariants of the block and of its channel port, and the spec's premises EXCLUSIVE,
SETTLED and CHANNEL_RETURNS as predicates on the environment. -/

namespace Sys2Proof.Machine

/-- A command whose first transaction is a width query (41_codec R141). -/
def latchesWidth : Command → Bool
  | .readReg reg => admitted .read reg && isWide reg
  | .writeReg reg _ => admitted .write reg && isWide reg
  | .getCounts | .setCounts _ => true
  | .encode _ _ | .load _ | .clear _ | .getField _ | .setField _ _ => false

/-- A command that holds a byte between its two transactions (42_mode_fields R183). -/
def holdsByte : Command → Bool
  | .setField _ _ => true
  | .encode _ _ | .readReg _ | .writeReg _ _ | .load _ | .clear _ | .getCounts | .setCounts _ | .getField _ => false

/-- The `Busy` forms that 10_state R21 and R22 allow: a command that passed its checks, a step index inside its sequence, a width
latched exactly after a width query, a byte held exactly after the read of a read-modify-write. -/
def blockOk (p : Params) : Block → Bool
  | .idle => true
  | .busy c k w held =>
    verdict p c = none && decide (k < (program c).length) &&
      w.isSome == (latchesWidth c && k != 0) && held.isSome == (holdsByte c && k != 0)

/-- The invariant of the block: legal parameters and an allowed form. -/
def State.Inv (s : State) : Prop := s.params.legal = true ∧ blockOk s.params s.block = true

/-- A transaction that the block may issue: a frame of an admitted byte with the length of 20_memory R57 at some width, by the primitive of
30_encoding R86; it returned or failed, and a Write returned no bytes. -/
def transactionOk (p : Params) (t : Transaction) : Bool :=
  match decode p t.out with
  | .error _ => false
  | .ok (i, payload) =>
    [Width.w8, .w16, .w24, .w32].any (fun w => Frame.wellFormed w { instr := i, payload := payload }) &&
    t.prim = (if opOf i = .read then .exchange else .write) &&
    match t.prim, t.reply with
    | _, .silent => false
    | _, .failed _ => true
    | .write, .returned rx => rx = []
    | .exchange, .returned _ => true

/-- The invariant of the channel port (30_encoding R88: "The block emits exactly these 14 instruction bytes"). -/
def State.BusOk (s : State) : Prop := ∀ t ∈ s.bus, transactionOk s.params t = true

/-- `n` steps, stopping at the first fault or refusal. -/
def steps : Nat → State → Host.Outcome State Fault Refusal
  | 0, s => .next s
  | n + 1, s =>
    match step s with
    | .next t => steps n t
    | .fault f => .fault f
    | .refused r => .refused r

/-- What a register of the device holds, as a natural. -/
def deviceReg (d : Device) : Reg → Nat
  | .mdr0 => d.mdr0.toNat
  | .mdr1 => d.mdr1.toNat
  | .dtr => d.dtr.toNat
  | .cntr => d.cntr.toNat
  | .otr => d.otr.toNat
  | .str => d.str.toNat

/-- CHANNEL_RETURNS (70 R279): no channel primitive stays silent. -/
def State.ChannelReturns (s : State) : Prop :=
  (∀ d ∈ s.env, d.answer ≠ .silent) ∧ (s.world = .free → ∀ n, (Config.freeDraw n).answer ≠ .silent)

/-- EXCLUSIVE (20_memory R64) with SETTLED (R69), for one draw: no other master and no unsettled write has changed the device. -/
def drawExclusive (d : Draw) : Bool :=
  match d.change with
  | .foreign _ => false
  | .quiet | .activity _ _ _ => true

/-- EXCLUSIVE and SETTLED at every coming transaction, with a device that answers each (20_memory R64, R69, R70); it may count, latch and
change OTR in between (R62). -/
def State.Exclusive (s : State) : Prop :=
  s.world = .reference ∧ ∀ d ∈ s.env, drawExclusive d = true ∧ ∃ echo, d.answer = .device echo

/-- A draw in which the reference device answers and has changed nothing on its own (20_memory R70). -/
def drawCalm (d : Draw) : Bool :=
  match d.change, d.answer with
  | .quiet, .device _ => true
  | .quiet, .respond _ => false
  | .quiet, .fail _ _ => false
  | .quiet, .silent => false
  | .activity _ _ _, _ => false
  | .foreign _, _ => false

/-- The reference device alone on the channel: EXCLUSIVE, SETTLED, no failure, no count in between. -/
def State.Calm (s : State) : Prop := s.world = .reference ∧ ∀ d ∈ s.env, drawCalm d = true

end Sys2Proof.Machine
end

