-- ==== Sys2Proof/Certificates/Slice0/Obligations.lean ====
section
/-! DEFINITION. The statements for the provers, from the numbered rules of spec/. -/

open Sys2Proof Sys2Proof.Machine

namespace Sys2Proof.Claims

/-- `s` after one transaction: every field is written out, so this says too what stays. `d` is the device afterwards, `b` the
block, `new` what is delivered on the command port. -/
def after (s : State) (prim : Primitive) (out : List Byte) (reply : Reply) (d : Device) (b : Block)
    (new : List (Command × Result)) : State where
  params := s.params
  block := b
  requests := s.requests
  results := new ++ s.results
  bus := { prim := prim, out := out, reply := reply } :: s.bus
  env := s.env.tail
  world := s.world
  dev := d
  drawn := s.drawn + 1

/-- The meaning of a byte that opens a write or control frame `out` of command `c`: when the Write completes, the device is `d`, the
block `b`, and `new` is delivered; when it fails, `TransportError` is delivered, the block is Idle, and the frame reached
the device or did not (60_exceptions R232, R238). -/
def WriteRule (i : Instr) (s : State) (c : Command) (out : List Byte) (d : Device) (b : Block)
    (new : List (Command × Result)) : Prop :=
  (s.reply .write out = .returned [] → exec i s = .next (after s .write out (.returned []) d b new)) ∧
  (∀ e landed, s.nextDraw.answer = .fail e landed →
    exec i s = .next
      (after s .write out (.failed e) (if landed then d else s.arrival) .idle [(c, .transportError e)]))

/-- The meaning of a byte that opens a read frame `out` of command `c`: when the Exchange returns an echo byte and a payload of the right
length, the block and the delivered results are `good payload`; when it fails, `TransportError`; when the length is wrong,
`ChannelLengthMismatch` (60_exceptions R232, R233). The device is as it was when the frame arrived. -/
def ReadRule (i : Instr) (s : State) (c : Command) (out : List Byte)
    (good : List Byte → Block × List (Command × Result)) : Prop :=
  (∀ x payload, s.reply .exchange out = .returned (x :: payload) → payload.length + 1 = out.length →
    exec i s = .next
      (after s .exchange out (.returned (x :: payload)) s.arrival (good payload).1 (good payload).2)) ∧
  (∀ e landed, s.nextDraw.answer = .fail e landed →
    exec i s = .next (after s .exchange out (.failed e) s.arrival .idle [(c, .transportError e)])) ∧
  (∀ rx, s.reply .exchange out = .returned rx → rx.length ≠ out.length →
    exec i s = .next
      (after s .exchange out (.returned rx) s.arrival .idle [(c, .lengthMismatch out.length rx.length)]))

/-- A device with the holder of a mode field set to a byte. -/
def withHolder (f : Field) (b : Byte) (d : Device) : Device :=
  match holder f with
  | .mdr0 => { d with mdr0 := b }
  | .mdr1 => { d with mdr1 := b }
  | .dtr | .cntr | .otr | .str => d

/-- The merged byte of 42_mode_fields R183, written out. -/
def merged (p : Params) (f : Field) (code : Nat) (b : Byte) : Byte :=
  (b &&& ~~~(BitVec.ofNat 8 (2 ^ fieldWidth f - 1) <<< shiftOf p.layout f)) ||| (BitVec.ofNat 8 code <<< shiftOf p.layout f)

/-- The width an MDR1 byte names, written out from 41_codec R141. -/
def queriedWidth (p : Params) (b : Byte) : Width :=
  widthOfCode p.widthOf ((b >>> shiftOf p.layout .bits) &&& 0x3).toNat

/-- The map of field `f` is exactly `pairs`: each value with its code and no other, both ways, and the domain is its values. -/
def MapIs (p : Params) (f : Field) (pairs : List (Logical × Nat)) : Prop :=
  (∀ x c, codeOf p f x = some c ↔ (x, c) ∈ pairs) ∧
  (∀ x, x ∈ domain p f ↔ ∃ c, (x, c) ∈ pairs) ∧
  (∀ x c, (x, c) ∈ pairs → logicalOf p f c = x)

/-- The ten instructions of 30_encoding R89, in its order. -/
def notAdmitted : List Instr :=
  [.clrDtr, .clrOtr, .rdDtr, .wrCntr, .wrOtr, .wrStr, .loadMdr0, .loadMdr1, .loadDtr, .loadStr]

/-- The count of transactions of 70 R280's table, for a command that passes its checks. -/
def countOf : Command → Nat
  | .encode _ _ => 0
  | .readReg .mdr0 | .readReg .mdr1 | .readReg .str => 1
  | .readReg .cntr | .readReg .otr | .readReg .dtr => 2
  | .writeReg .dtr _ => 2
  | .writeReg .mdr0 _ | .writeReg .mdr1 _ | .writeReg .cntr _ | .writeReg .otr _ | .writeReg .str _ => 1
  | .load _ | .clear _ => 1
  | .getCounts => 2
  | .setCounts _ => 3
  | .getField _ => 1
  | .setField _ _ => 2

/-- The pair a raw command names (41_codec R144). -/
def rawPair : Command → Option (Op × Reg)
  | .readReg reg => some (.read, reg)
  | .writeReg reg _ => some (.write, reg)
  | .load reg => some (.load, reg)
  | .clear reg => some (.clear, reg)
  | .encode _ _ | .getCounts | .setCounts _ | .getField _ | .setField _ _ => none

end Sys2Proof.Claims

open Sys2Proof.Claims

/-! ### Encoding -/

/-- 30_encoding R82, R83: the constants of the two tables, their fields, and the two legal values and the default of `STATUS_CODE`. -/
def Obligations.EncodingConstants : Prop :=
  opByte .clear = 0x00 ∧ opByte .read = 0x40 ∧ opByte .write = 0x80 ∧ opByte .load = 0xC0 ∧
  ∀ p : Params,
    regByte p .mdr0 = 0x08 ∧ regByte p .mdr1 = 0x10 ∧ regByte p .dtr = 0x18 ∧ regByte p .cntr = 0x20 ∧
    regByte p .otr = 0x28 ∧
    (p.statusCode = .c38 → regByte p .str = 0x38) ∧ (p.statusCode = .c30 → regByte p .str = 0x30) ∧
    (p.statusCode = .c38 ∨ p.statusCode = .c30) ∧ Params.standard.statusCode = .c38 ∧
    (∀ op, (opByte op).extractLsb' 6 2 =
      (match op with | .clear => 0b00 | .read => 0b01 | .write => 0b10 | .load => 0b11)) ∧
    (∀ reg, (regByte p reg).extractLsb' 3 3 =
      (match reg with
        | .mdr0 => 0b001 | .mdr1 => 0b010 | .dtr => 0b011 | .cntr => 0b100 | .otr => 0b101
        | .str => match p.statusCode with | .c38 => 0b111 | .c30 => 0b110))

/-- 30_encoding R84: the OR of the two constants, whose bits are disjoint, so that it equals their sum; injective on the 24 pairs whatever `STATUS_CODE`. -/
def Obligations.EncodeIsInjective : Prop :=
  ∀ (p : Params) (op : Op) (reg : Reg),
    encodeByte p op reg = opByte op ||| regByte p reg ∧
    opByte op &&& regByte p reg = 0 ∧
    (encodeByte p op reg).toNat = (opByte op).toNat + (regByte p reg).toNat ∧
    ∀ (op' : Op) (reg' : Reg), encodeByte p op reg = encodeByte p op' reg' → op = op' ∧ reg = reg'

/-- 30_encoding R85: the fields of an instruction byte, and the observer that recovers the pair from the byte alone. -/
def Obligations.InstructionByteFields : Prop :=
  ∀ (p : Params) (op : Op) (reg : Reg),
    (encodeByte p op reg).extractLsb' 6 2 =
      (match op with | .clear => 0b00 | .read => 0b01 | .write => 0b10 | .load => 0b11) ∧
    (encodeByte p op reg).extractLsb' 3 3 =
      (match reg with
        | .mdr0 => 0b001 | .mdr1 => 0b010 | .dtr => 0b011 | .cntr => 0b100 | .otr => 0b101
        | .str => match p.statusCode with | .c38 => 0b111 | .c30 => 0b110) ∧
    (encodeByte p op reg).extractLsb' 0 3 = 0b000 ∧
    decodeByte p (encodeByte p op reg) = .ok (instrOf op reg)

/-- Words written out from 30_encoding R88 and R89 decode to their instructions: at least one of each family, and the
Status byte under both codes. -/
def Obligations.WordsDecode : Prop :=
  decodeTableWord 8 0x08 = some .clrMdr0 ∧ decodeTableWord 8 0x38 = some .clrStr ∧
  decodeTableWord 8 0x28 = some .clrOtr ∧
  decodeTableWord 8 0x50 = some .rdMdr1 ∧ decodeTableWord 8 0x60 = some .rdCntr ∧
  decodeTableWord 8 0x78 = some .rdStr ∧
  decodeTableWord 8 0x88 = some .wrMdr0 ∧ decodeTableWord 8 0x98 = some .wrDtr ∧
  decodeTableWord 8 0xE0 = some .loadCntr ∧ decodeTableWord 8 0xE8 = some .loadOtr ∧
  decodeByte { Params.standard with statusCode := .c30 } 0x70 = .ok .rdStr

/-- The reserved bytes of 30_encoding R90 (`sel` = 000, the select that no register takes, `z` not 000): no pair encodes to one of them,
which is the rule's. That each is rejected under its own name is the model's decoder, an observer's (log entry 21, DEDUCED): the rule
calls the bytes unreachable, not illegal, and gives the block no decoder. -/
def Obligations.ReservedBytesRejected : Prop :=
  ∀ (p : Params) (b : Byte),
    (b.extractLsb' 0 3 ≠ 0 → decodeByte p b = .error (.lowBits b)) ∧
    (b.extractLsb' 0 3 = 0 → b.extractLsb' 3 3 = 0 → decodeByte p b = .error (.selectZero b)) ∧
    (b.extractLsb' 0 3 = 0 → b.extractLsb' 3 3 = (match p.statusCode with | .c38 => 0b110 | .c30 => 0b111) →
      decodeByte p b = .error (.selectUnused b)) ∧
    ((∃ e, decodeByte p b = .error e) → ∀ op reg, encodeByte p op reg ≠ b)

/-- 30_encoding R88: exactly 14 pairs are admitted, with these bytes at the default `STATUS_CODE`; where it is 0x30, CLR STR is
0x30 and RD STR is 0x70. -/
def Obligations.FourteenAdmittedBytes : Prop :=
  (∀ op reg, admitted op reg = true ↔
    encodeByte Params.standard op reg ∈
      [0x08, 0x10, 0x20, 0x38, 0x48, 0x50, 0x60, 0x68, 0x78, 0x88, 0x90, 0x98, 0xE0, (0xE8 : Byte)]) ∧
  (∀ p : Params, p.statusCode = .c30 → encodeByte p .clear .str = 0x30 ∧ encodeByte p .read .str = 0x70)

/-- 30_encoding R91, R86: a byte stream of well-formed frames, at one width in force, splits back into exactly those frames. -/
def Obligations.FrameStreamSplits : Prop :=
  ∀ (p : Params) (w : Width) (fs : List Frame) (fuel : Nat),
    (∀ f ∈ fs, f.wellFormed w = true) → fs.length ≤ fuel →
    splitFrames p w fuel (fs.flatMap (encodeFrame p)) = some fs

/-- 40_encoder R110: `ENCODE` answers the byte of every one of the 24 pairs, with no transaction and no error; no pair encodes to 0x00; the
examples of the rule. -/
def Obligations.EncodeCommandAnswers : Prop :=
  (∀ (s : State) (op : Op) (reg : Reg) (rest : List Command),
    s.block = .idle → s.requests = .encode op reg :: rest →
    opByte op ||| regByte s.params reg ≠ 0x00 ∧
    step s = .next
      { s with
        requests := rest
        results := (.encode op reg, .ok (.byte (opByte op ||| regByte s.params reg))) :: s.results }) ∧
  (∀ p : Params,
    encodeByte p .read .cntr = 0x60 ∧ encodeByte p .write .mdr0 = 0x88 ∧ encodeByte p .clear .mdr0 = 0x08 ∧
    (p.statusCode = .c38 → encodeByte p .read .str = 0x78) ∧
    (p.statusCode = .c30 → encodeByte p .read .str = 0x70))

/-! ### The instruction bytes: what each does, and all that stays -/

/-- 40_encoder R111 to R114: CLR MDR0, MDR1, CNTR and STR in their commands. -/
def Obligations.ClearFramesComplete : Prop :=
  ∀ (s : State) (w : Option Width) (held : Option Byte),
    (s.block = .busy (.clear .mdr0) 0 w held →
      WriteRule .clrMdr0 s (.clear .mdr0) [0x08] { s.arrival with mdr0 := s.params.porMdr0 } .idle
        [(.clear .mdr0, .ok .unit)]) ∧
    (s.block = .busy (.clear .mdr1) 0 w held →
      WriteRule .clrMdr1 s (.clear .mdr1) [0x10] { s.arrival with mdr1 := s.params.porMdr1 } .idle
        [(.clear .mdr1, .ok .unit)]) ∧
    (s.block = .busy (.clear .cntr) 0 w held →
      WriteRule .clrCntr s (.clear .cntr) [0x20] { s.arrival with cntr := 0 } .idle
        [(.clear .cntr, .ok .unit)]) ∧
    (s.block = .busy (.clear .str) 0 w held →
      WriteRule .clrStr s (.clear .str) [statusByte s.params.statusCode] { s.arrival with str := 0 } .idle
        [(.clear .str, .ok .unit)])

/-- 40_encoder R123, R124: LOAD CNTR in `LOAD(CNTR)` and as the last transaction of `SET_COUNTS`, and LOAD OTR. Where the Write fails, the
load has happened or not, as 60_exceptions R238 has it; R123's "CNTR has not" is not followed (log entry 11, DEDUCED). -/
def Obligations.LoadFramesComplete : Prop :=
  ∀ (s : State) (w : Option Width) (held : Option Byte) (v : Int),
    (s.block = .busy (.load .cntr) 0 w held →
      WriteRule .loadCntr s (.load .cntr) [0xE0] { s.arrival with cntr := s.arrival.dtr } .idle
        [(.load .cntr, .ok .unit)]) ∧
    (s.block = .busy (.setCounts v) 2 w held →
      WriteRule .loadCntr s (.setCounts v) [0xE0] { s.arrival with cntr := s.arrival.dtr } .idle
        [(.setCounts v, .ok .unit)]) ∧
    (s.block = .busy (.load .otr) 0 w held →
      WriteRule .loadOtr s (.load .otr) [0xE8] { s.arrival with otr := s.arrival.cntr } .idle
        [(.load .otr, .ok .unit)])

/-- 40_encoder R115, R116, R119: RD MDR0, RD MDR1 and RD STR in `READ_REG`: one byte, no width query. -/
def Obligations.NarrowReadsComplete : Prop :=
  ∀ (s : State) (w : Option Width) (held : Option Byte),
    (s.block = .busy (.readReg .mdr0) 0 w held →
      ReadRule .rdMdr0 s (.readReg .mdr0) [0x48, 0x00]
        (fun rx => (.idle, [(.readReg .mdr0, .ok (.nat (rx.headD 0).toNat))]))) ∧
    (s.block = .busy (.readReg .mdr1) 0 w held →
      ReadRule .rdMdr1 s (.readReg .mdr1) [0x50, 0x00]
        (fun rx => (.idle, [(.readReg .mdr1, .ok (.nat (rx.headD 0).toNat))]))) ∧
    (s.block = .busy (.readReg .str) 0 w held →
      ReadRule .rdStr s (.readReg .str) [0x40 ||| statusByte s.params.statusCode, 0x00]
        (fun rx => (.idle, [(.readReg .str, .ok (.nat (rx.headD 0).toNat))])))

/-- 40_encoder R117, R118: RD CNTR and RD OTR in `READ_REG`, at the latched width: an unsigned value below `2^w`. -/
def Obligations.WideReadsComplete : Prop :=
  ∀ (s : State) (w : Width) (held : Option Byte),
    (s.block = .busy (.readReg .cntr) 1 (some w) held →
      ReadRule .rdCntr s (.readReg .cntr) (0x60 :: zeros (w.bits / 8))
        (fun rx => (.idle, [(.readReg .cntr, .ok (.nat (unBE rx)))]))) ∧
    (s.block = .busy (.readReg .otr) 1 (some w) held →
      ReadRule .rdOtr s (.readReg .otr) (0x68 :: zeros (w.bits / 8))
        (fun rx => (.idle, [(.readReg .otr, .ok (.nat (unBE rx)))]))) ∧
    (∀ rx : List Byte, rx.length = w.bits / 8 → unBE rx < 2 ^ w.bits)

/-- 41_codec R152, second transaction: RD CNTR in `GET_COUNTS`, its sign decoded at the width that sized the frame. -/
def Obligations.GetCountsDecodes : Prop :=
  ∀ (s : State) (w : Width) (held : Option Byte),
    s.block = .busy .getCounts 1 (some w) held →
    ReadRule .rdCntr s .getCounts (0x60 :: zeros (w.bits / 8))
      (fun rx => (.idle, [(.getCounts, .ok (.int
        (if (unBE rx).testBit (w.bits - 1) then (unBE rx : Int) - 2 ^ w.bits else unBE rx)))]))

/-- 41_codec R141: RD MDR1 as the width query of every command on a wide register. The width is latched; the next transaction is
the command's second. -/
def Obligations.WidthQueryLatches : Prop :=
  ∀ (s : State) (c : Command) (w : Option Width) (held : Option Byte),
    latchesWidth c = true → s.block = .busy c 0 w held →
    ReadRule .rdMdr1 s c [0x50, 0x00]
      (fun rx => (.busy c 1 (some (queriedWidth s.params (rx.headD 0))) none, []))

/-- 42_mode_fields R182: RD of the holder in `GET_FIELD`, for each of the sixteen fields. -/
def Obligations.GetFieldExtracts : Prop :=
  ∀ (s : State) (f : Field) (w : Option Width) (held : Option Byte),
    s.block = .busy (.getField f) 0 w held →
    ReadRule (instrOf .read (holder f)) s (.getField f) [encodeByte s.params .read (holder f), 0x00]
      (fun rx => (.idle, [(.getField f, .ok (.logical (logicalOf s.params f
        ((rx.headD 0 >>> shiftOf s.params.layout f) &&& BitVec.ofNat 8 (2 ^ fieldWidth f - 1)).toNat)))]))

/-- 42_mode_fields R183, first transaction: RD of the holder in `SET_FIELD`; the byte is held for the merge. -/
def Obligations.SetFieldHolds : Prop :=
  ∀ (s : State) (f : Field) (x : Logical) (w : Option Width) (held : Option Byte),
    s.block = .busy (.setField f x) 0 w held →
    ReadRule (instrOf .read (holder f)) s (.setField f x) [encodeByte s.params .read (holder f), 0x00]
      (fun rx => (.busy (.setField f x) 1 none (some (rx.headD 0)), []))

/-- 42_mode_fields R183, second transaction: WR of the holder in `SET_FIELD`, with the merged byte, even when it equals the byte
read (R185). Where the Write fails, the holder has the merged byte or not, as 60_exceptions R238 has it; R183's "unchanged" is not
followed (log entry 11, DEDUCED). -/
def Obligations.SetFieldWritesMerged : Prop :=
  ∀ (s : State) (f : Field) (x : Logical) (w : Option Width) (b : Byte) (code : Nat),
    s.block = .busy (.setField f x) 1 w (some b) → readOnly f = false → codeOf s.params f x = some code →
    WriteRule (instrOf .write (holder f)) s (.setField f x)
      [encodeByte s.params .write (holder f), merged s.params f code b]
      (withHolder f (merged s.params f code b) s.arrival) .idle [(.setField f x, .ok .unit)]

/-- 40_encoder R120, R121: WR MDR0 and WR MDR1 in `WRITE_REG`: `v mod 2^8`, the whole register at once. -/
def Obligations.NarrowWritesComplete : Prop :=
  ∀ (s : State) (v : Nat) (w : Option Width) (held : Option Byte),
    (s.block = .busy (.writeReg .mdr0 v) 0 w held →
      WriteRule .wrMdr0 s (.writeReg .mdr0 v) [0x88, BitVec.ofNat 8 (v % 2 ^ 8)]
        { s.arrival with mdr0 := BitVec.ofNat 8 (v % 2 ^ 8) } .idle [(.writeReg .mdr0 v, .ok .unit)]) ∧
    (s.block = .busy (.writeReg .mdr1 v) 0 w held →
      WriteRule .wrMdr1 s (.writeReg .mdr1 v) [0x90, BitVec.ofNat 8 (v % 2 ^ 8)]
        { s.arrival with mdr1 := BitVec.ofNat 8 (v % 2 ^ 8) } .idle [(.writeReg .mdr1 v, .ok .unit)])

/-- 40_encoder R122 and 41_codec R153: WR DTR in `WRITE_REG` and in `SET_COUNTS`, truncated to the latched width. A device at that width
stores the value; at another width (not under EXCLUSIVE) what DTR holds is free (log entry 8). -/
def Obligations.DtrWritesComplete : Prop :=
  ∀ (s : State) (w : Width) (held : Option Byte),
    (∀ v : Nat, s.block = .busy (.writeReg .dtr v) 1 (some w) held →
      WriteRule .wrDtr s (.writeReg .dtr v) (0x98 :: be (v % 2 ^ w.bits) (w.bits / 8))
        { s.arrival with
          dtr :=
            if queriedWidth s.params s.arrival.mdr1 = w then BitVec.ofNat 32 (v % 2 ^ w.bits)
            else Config.freeWord s.drawn }
        .idle [(.writeReg .dtr v, .ok .unit)]) ∧
    (∀ v : Int, s.block = .busy (.setCounts v) 1 (some w) held →
      WriteRule .wrDtr s (.setCounts v) (0x98 :: be (v % 2 ^ w.bits).toNat (w.bits / 8))
        { s.arrival with
          dtr :=
            if queriedWidth s.params s.arrival.mdr1 = w then BitVec.ofNat 32 (v % 2 ^ w.bits).toNat
            else Config.freeWord s.drawn }
        (.busy (.setCounts v) 2 (some w) held) [])

/-- 30_encoding R89: the ten bytes that are not admitted, at the default `STATUS_CODE`. A command that names one is refused with no
transaction, and nothing else changes (60_exceptions R234): that is the whole effect of the byte. `ENCODE` returns it. For a `WRITE_REG`
whose value is too wide as well, the reason UnadmittedPair is the model's order (log entry 7, DEDUCED). -/
def Obligations.UnadmittedBytesRefuse : Prop :=
  (notAdmitted.map fun i => encodeByte .standard (opOf i) (regOf i)) =
    [0x18, 0x28, 0x58, 0xA0, 0xA8, 0xB8, 0xC8, 0xD0, 0xD8, 0xF8] ∧
  (∀ (s : State) (i : Instr) (c : Command) (k : Nat) (w : Option Width) (held : Option Byte),
    i ∈ notAdmitted → s.block = .busy c k w held → s.current = some (opOf i, regOf i) →
    exec i s = .next
      { s with block := .idle, results := (c, .refused (.unadmittedPair (opOf i) (regOf i))) :: s.results }) ∧
  (∀ (s : State) (i : Instr) (rest : List Command),
    i ∈ notAdmitted → s.block = .idle → s.requests = .encode (opOf i) (regOf i) :: rest →
    step s = .next
      { s with
        requests := rest
        results := (.encode (opOf i) (regOf i), .ok (.byte (encodeByte s.params (opOf i) (regOf i)))) :: s.results })

/-- The frame of all 24 bytes: parameters, waiting commands and world never change; results and bus only grow, by at most one; a read
changes no device register, and any other byte at most the register it names. -/
def Obligations.InstructionFrame : Prop :=
  ∀ (i : Instr) (s t : State), exec i s = .next t →
    t.params = s.params ∧ t.requests = s.requests ∧ t.world = s.world ∧
    (t.results = s.results ∨ ∃ r, t.results = r :: s.results) ∧
    ((t.bus = s.bus ∧ t.dev = s.dev ∧ t.env = s.env ∧ t.drawn = s.drawn) ∨
     (admitted (opOf i) (regOf i) = true ∧ (∃ x, t.bus = x :: s.bus) ∧ t.env = s.env.tail ∧
      t.drawn = s.drawn + 1 ∧
      ∀ reg, opOf i = .read ∨ reg ≠ regOf i → deviceReg t.dev reg = deviceReg s.arrival reg))

/-- An instruction byte that is not the current transaction of the command in progress stops with a fault (the model's choice,
log entry 14). -/
def Obligations.OutOfTurnByteFaults : Prop :=
  ∀ (i : Instr) (s : State), s.current ≠ some (opOf i, regOf i) → exec i s = .fault .notCurrent

/-! ### Steps and commands -/

/-- A step of a busy block runs the instruction that the byte of its current transaction decodes to. Reading the formed byte back
with the observer's decoder is the model's construction (log entry 21, DEDUCED): 30_encoding R85 says that the block itself never decodes
an instruction byte. -/
def Obligations.StepRunsDecoded : Prop :=
  ∀ (s : State) (b : Byte) (i : Instr),
    s.currentByte = some b → decodeByte s.params b = .ok i → step s = exec i s

/-- `withFetchWord`'s placement: the placed instruction is the one fetched, and the next step runs it (log entry 18). -/
def Obligations.PlacedInstructionRuns : Prop :=
  ∀ (s : State) (i : Instr),
    (s.placeInstr i).fetch = some i ∧ step (s.placeInstr i) = exec i (s.placeInstr i)

/-- 10_state R22 and 60_exceptions R235: an Idle block with a command waiting accepts it. How the acceptance falls into steps is the
model's choice (log entry 6). A command that passes the checks of `verdict` enters Busy at step 0 with no width and no held byte. One that
ends in `verdict` is answered in the same step and the block stays Idle. A raw command on a pair that is not admitted enters Busy too, and
the next step refuses it, with no transaction, and with UnadmittedPair even where the value is too wide as well (log entry 7, DEDUCED). -/
def Obligations.IdleAccepts : Prop :=
  ∀ (s : State) (c : Command) (rest : List Command),
    s.block = .idle → s.requests = c :: rest →
    (verdict s.params c = none → step s = .next { s with block := .busy c 0 none none, requests := rest }) ∧
    (∀ r, verdict s.params c = some r →
      step s = .next { s with requests := rest, results := (c, r) :: s.results }) ∧
    (∀ op reg, rawPair c = some (op, reg) → admitted op reg = false →
      verdict s.params c = none ∧
      step { s with block := .busy c 0 none none, requests := rest } = .next
        { s with requests := rest, results := (c, .refused (.unadmittedPair op reg)) :: s.results })

/-- 42_mode_fields R181: `SET_FIELD` on a status field is refused whatever the operand; on another field an operand outside the domain is
answered InvalidArgument with the field and the domain. Both before any transaction: nothing else changes. `GET_FIELD` is checked for
nothing. -/
def Obligations.SetFieldChecksFirst : Prop :=
  ∀ (s : State) (f : Field) (rest : List Command),
    s.block = .idle →
    (∀ x : Logical, s.requests = .setField f x :: rest →
      (holder f = .str →
        step s = .next
          { s with requests := rest, results := (.setField f x, .refused (.readOnlyField f)) :: s.results }) ∧
      (holder f ≠ .str → x ∉ domain s.params f →
        step s = .next
          { s with
            requests := rest
            results := (.setField f x, .invalidArgument f (domain s.params f)) :: s.results }) ∧
      (holder f ≠ .str → x ∈ domain s.params f →
        step s = .next { s with block := .busy (.setField f x) 0 none none, requests := rest })) ∧
    (s.requests = .getField f :: rest →
      step s = .next { s with block := .busy (.getField f) 0 none none, requests := rest })

/-- 60_exceptions R234: the three causes of refusal. No transaction is issued and nothing changes but the command port. Where a
`WRITE_REG` meets the first two causes at once, the reason is UnadmittedPair, which is the model's order (log entry 7, DEDUCED); that the
first cause is answered in the step after acceptance is the model's too (log entry 6). -/
def Obligations.RefusedCommandsChangeNothing : Prop :=
  ∀ (s : State) (c : Command) (rest : List Command), s.block = .idle → s.requests = c :: rest →
    (∀ op reg, rawPair c = some (op, reg) → admitted op reg = false →
      steps 2 s = .next
        { s with requests := rest, results := (c, .refused (.unadmittedPair op reg)) :: s.results }) ∧
    (∀ reg v, c = .writeReg reg v → admitted .write reg = true → 2 ^ s.params.valueBits ≤ v →
      steps 1 s = .next { s with requests := rest, results := (c, .refused .valueTooWide) :: s.results }) ∧
    (∀ f x, c = .setField f x → readOnly f = true →
      steps 1 s = .next { s with requests := rest, results := (c, .refused (.readOnlyField f)) :: s.results })

/-- 41_codec R152, whole: `GET_COUNTS` from its acceptance, for any answers of the channel: the width query, then RD CNTR sized by it, then the
sign at that same width. -/
def Obligations.GetCountsRuns : Prop :=
  ∀ (s : State) (rest : List Command) (ch ch' : DevChange) (x y b : Byte) (rx : List Byte) (env : List Draw),
    s.block = .idle → s.requests = .getCounts :: rest →
    s.env = { change := ch, answer := .respond [x, b] } :: { change := ch', answer := .respond (y :: rx) } :: env →
    rx.length = (queriedWidth s.params b).bits / 8 →
    steps 3 s = .next
      { s with
        requests := rest
        results := (.getCounts, .ok (.int (decodeSigned (unBE rx) (queriedWidth s.params b)))) :: s.results
        bus :=
          { prim := .exchange, out := 0x60 :: zeros ((queriedWidth s.params b).bits / 8), reply := .returned (y :: rx) } ::
          { prim := .exchange, out := [0x50, 0x00], reply := .returned [x, b] } :: s.bus
        env := env
        dev := applyChange ch' (applyChange ch s.dev)
        drawn := s.drawn + 2 }

/-- 41_codec R153, whole: `SET_COUNTS(v)` from its acceptance, for any answer to the width query and a device that does nothing on its own at
the two writes: the pattern `v mod 2^w` goes into DTR, and DTR is committed to CNTR. -/
def Obligations.SetCountsRuns : Prop :=
  ∀ (s : State) (v : Int) (rest : List Command) (x b e e' : Byte) (env : List Draw),
    s.block = .idle → s.requests = .setCounts v :: rest →
    s.env = { change := .quiet, answer := .respond [x, b] } :: { change := .quiet, answer := .device e } ::
      { change := .quiet, answer := .device e' } :: env →
    queriedWidth s.params s.dev.mdr1 = queriedWidth s.params b →
    steps 4 s = .next
      { s with
        requests := rest
        results := (.setCounts v, .ok .unit) :: s.results
        bus :=
          { prim := .write, out := [0xE0], reply := .returned [] } ::
          { prim := .write
            out := 0x98 :: be (v % 2 ^ (queriedWidth s.params b).bits).toNat ((queriedWidth s.params b).bits / 8)
            reply := .returned [] } ::
          { prim := .exchange, out := [0x50, 0x00], reply := .returned [x, b] } :: s.bus
        env := env
        dev := { s.dev with
          dtr := BitVec.ofNat 32 (v % 2 ^ (queriedWidth s.params b).bits).toNat
          cntr := BitVec.ofNat 32 (v % 2 ^ (queriedWidth s.params b).bits).toNat }
        drawn := s.drawn + 3 }

/-- 60_exceptions R232, R236: when the transaction of a step fails, the command ends: its error is delivered unchanged, width and held byte
are gone, the failing transaction has been attempted and no other; if it did not land, the device is as it was on arrival. -/
def Obligations.TransportErrorEndsCommand : Prop :=
  ∀ (s t : State) (c : Command) (k : Nat) (w : Option Width) (held : Option Byte) (op : Op) (reg : Reg)
    (e : ErrorToken) (landed : Bool),
    s.block = .busy c k w held → s.current = some (op, reg) → admitted op reg = true →
    s.nextDraw.answer = .fail e landed → step s = .next t →
    t.block = .idle ∧ t.results = (c, .transportError e) :: s.results ∧
    (∃ x : Transaction, x.reply = .failed e ∧ t.bus = x :: s.bus) ∧
    (landed = false → t.dev = s.arrival)

/-- 60_exceptions R238, the rows of `SET_COUNTS`: a failed width query changes no device register; a failed WR DTR leaves CNTR; a failed LOAD CNTR
leaves DTR, and CNTR is as before or holds DTR. -/
def Obligations.SetCountsResidue : Prop :=
  ∀ (s t : State) (v : Int) (k : Nat) (w : Option Width) (held : Option Byte) (e : ErrorToken) (landed : Bool),
    s.block = .busy (.setCounts v) k w held → s.nextDraw.answer = .fail e landed → step s = .next t →
    (k = 0 → t.dev = s.arrival) ∧
    (k = 1 → t.dev.cntr = s.arrival.cntr) ∧
    (k = 2 → t.dev.dtr = s.arrival.dtr ∧
      (t.dev.cntr = s.arrival.cntr ∨ t.dev.cntr = s.arrival.dtr))

/-- A channel primitive that never returns: the command never ends (93 I9). The block is where it was, nothing is delivered, and the channel
is still silent (the model's stuck state, log entry 5). -/
def Obligations.SilentChannelStalls : Prop :=
  ∀ (s : State), s.Inv → s.block ≠ .idle → s.nextDraw.answer = .silent →
    (∀ op reg, s.current = some (op, reg) → admitted op reg = true) →
    ∃ t, step s = .next t ∧ t.block = s.block ∧ t.results = s.results ∧ t.requests = s.requests ∧
      t.nextDraw.answer = .silent

/-- 10_state R24's "at most one transaction at a time" and 60_exceptions R230's "exactly one of these outcomes": a step issues at most one
transaction and delivers at most one result; it delivers one exactly when a command ends. -/
def Obligations.OneOutcomePerCommand : Prop :=
  ∀ (s t : State), step s = .next t →
    (t.bus = s.bus ∨ ∃ x, t.bus = x :: s.bus) ∧
    ((t.results = s.results ∧ (t.block = .idle → s.block = .idle)) ∨
     (∃ c r, t.results = (c, r) :: s.results ∧ t.block = .idle ∧
       ((∃ k w held, s.block = .busy c k w held) ∨ (s.block = .idle ∧ s.requests = c :: t.requests))))

/-- 41_codec R141, R149, 70 R270: a command on a wide register starts with a width query of its own and brings no width from an earlier
command; once a width is latched, it never changes within the command, and no second width query is issued. -/
def Obligations.WidthLatchedOnce : Prop :=
  (∀ (s : State) (c : Command) (rest : List Command),
    s.block = .idle → s.requests = c :: rest → latchesWidth c = true → verdict s.params c = none →
    ∃ t, step s = .next t ∧ t.current = some (.read, .mdr1) ∧ t.latched = none ∧ t.bus = s.bus) ∧
  (∀ (s : State) (c : Command) (k : Nat) (w : Width) (held : Option Byte),
    s.Inv → s.block = .busy c k (some w) held →
    s.current ≠ some (.read, .mdr1) ∧
    ∀ t, step s = .next t → t.block = .idle ∨ t = s ∨ ∃ held', t.block = .busy c (k + 1) (some w) held')

/-- 42_mode_fields R186: another agent's write that lands between the two transactions of `SET_FIELD` is lost: the holder gets the byte
that was read, with only the field changed. Every other register keeps what the other agent wrote. -/
def Obligations.InterleavedWriteIsLost : Prop :=
  ∀ (s : State) (f : Field) (x : Logical) (w : Option Width) (b echo : Byte) (code : Nat) (d : Device)
    (env : List Draw),
    s.block = .busy (.setField f x) 1 w (some b) → readOnly f = false → codeOf s.params f x = some code →
    s.env = { change := .foreign d, answer := .device echo } :: env →
    ∃ t, step s = .next t ∧ t.dev = withHolder f (merged s.params f code b) d

/-- 10_state R31, where the Write completes (the channel's answer to a Write does not depend on the bytes): bit 3 is in no field; an RMW of MDR1 writes bit 3
back as it read it; `WRITE_REG(MDR1, v)` writes `v[3]` as given. -/
def Obligations.SpareBitOfMdr1 : Prop :=
  ∀ (s : State) (w : Option Width) (held : Option Byte), s.params.layout = .standard →
    s.reply .write [] = .returned [] →
    (∀ f, holder f = .mdr1 → (placedMask s.params f).getLsbD 3 = false) ∧
    (∀ f x code b, s.block = .busy (.setField f x) 1 w (some b) → holder f = .mdr1 →
      codeOf s.params f x = some code →
      ∃ t, step s = .next t ∧ t.dev.mdr1.getLsbD 3 = b.getLsbD 3) ∧
    (∀ v, s.block = .busy (.writeReg .mdr1 v) 0 w held →
      ∃ t, step s = .next t ∧ t.dev.mdr1.getLsbD 3 = v.testBit 3)

/-- 10_state R29, R34: no byte of the block sets an STR bit: STR is as the device left it, or CLR STR has made it zero. -/
def Obligations.StatusOnlyCleared : Prop :=
  ∀ (i : Instr) (s t : State), exec i s = .next t →
    t.dev.str = s.dev.str ∨ t.dev.str = s.arrival.str ∨ (i = .clrStr ∧ t.dev.str = 0)

/-! ### Reset and invariants -/

/-- 10_state R35, 70 R260, R261: after reset the block is Idle, nothing is latched or held, no command runs, and no transaction has been
issued; it waits for the first command. -/
def Obligations.ResetIsIdle : Prop :=
  State.reset.block = .idle ∧ State.reset.bus = [] ∧ State.reset.results = [] ∧ State.reset.requests = [] ∧
  step State.reset = .next State.reset

/-- 20_memory R71 with 00_scope R6: the device's registers after power-on at the default parameters. STR rests on the model's
choice of `POR_STR` (log entry 2). -/
def Obligations.ResetDevice : Prop :=
  State.reset.params = .standard ∧
  State.reset.dev = { mdr0 := 0x00, mdr1 := 0x00, dtr := 0, cntr := 0, otr := 0, str := 0x00 }

/-- The invariants hold at reset. -/
def Obligations.ResetMeetsInvariants : Prop := State.reset.Inv ∧ State.reset.BusOk

/-- 10_state R21, R22: every step keeps the allowed forms of the block: a command that passed its checks, a step index inside its sequence, a
width exactly after a width query, a held byte exactly after the read of an RMW. -/
def Obligations.StepKeepsBlockForm : Prop :=
  ∀ s t : State, s.Inv → step s = .next t → t.Inv

/-- 60_exceptions R230, R236, R237: no command's outcome stops the block: from every state that meets the invariant a step answers a
next state. On a silent channel, which 93 I9 calls stuck, that next state is the same state again, by the model's choice (log entry 5,
DEDUCED). -/
def Obligations.BlockNeverStops : Prop :=
  ∀ s : State, s.Inv → ∃ t, step s = .next t

/-- 30_encoding R88, R90, 20_memory R57: every step keeps the channel port's promise: only frames of the 14 admitted bytes, of the lengths of R57
at some width, by the right primitive. -/
def Obligations.StepKeepsBusFrames : Prop :=
  ∀ s t : State, s.BusOk → step s = .next t → t.BusOk

/-- 10_state R20: the block keeps nothing of earlier transactions and results: a step neither reads nor changes the history of its two
ports. -/
def Obligations.HistoryIsNotRead : Prop :=
  ∀ (s : State) (results : List (Command × Result)) (bus : List Transaction),
    step { s with results := s.results ++ results, bus := s.bus ++ bus } =
      match step s with
      | .next t => .next { t with results := t.results ++ results, bus := t.bus ++ bus }
      | .fault f => .fault f
      | .refused r => .refused r

/-- 41_codec R142 (decision D16): the first returned byte is never used: another echo byte gives the same block, results and device. -/
def Obligations.EchoIsIgnored : Prop :=
  ∀ (s t : State) (ch : DevChange) (x y : Byte) (rx : List Byte) (env : List Draw),
    s.env = { change := ch, answer := .respond (x :: rx) } :: env → s.block ≠ .idle → step s = .next t →
    ∃ t', step { s with env := { change := ch, answer := .respond (y :: rx) } :: env } = .next t' ∧
      t'.block = t.block ∧ t'.results = t.results ∧ t'.dev = t.dev ∧ t'.requests = t.requests

/-- 70 R279: under CHANNEL_RETURNS every command in progress ends, with exactly one outcome, after at most three transactions. -/
def Obligations.CommandsEnd : Prop :=
  ∀ (s : State) (c : Command) (k : Nat) (w : Option Width) (held : Option Byte),
    s.Inv → s.ChannelReturns → s.block = .busy c k w held →
    ∃ n t r, n ≤ 3 ∧ steps n s = .next t ∧ t.block = .idle ∧ t.results = (c, r) :: s.results ∧
      t.bus.length ≤ s.bus.length + n

/-- 70 R280: the exact transaction counts, with the reference device alone on the channel. -/
def Obligations.TransactionCounts : Prop :=
  ∀ (s : State) (c : Command) (rest : List Command),
    s.Inv → s.Calm → s.block = .idle → s.requests = c :: rest →
    (∀ op reg, rawPair c = some (op, reg) → admitted op reg = true) →
    (verdict s.params c = none ∨ ∃ op reg, c = .encode op reg) →
    ∃ t v, steps (countOf c + 1) s = .next t ∧ t.block = .idle ∧ t.requests = rest ∧
      t.results = (c, .ok v) :: s.results ∧ t.bus.length = s.bus.length + countOf c

/-! ### The codec -/

/-- 20_memory R53, R54: `BE` is the n-byte encoding, most significant byte first, and `unBE` reads it back. -/
def Obligations.BigEndianBothWays : Prop :=
  (∀ v n : Nat, (be v n).length = n ∧ unBE (be v n) = v % 2 ^ (8 * n)) ∧
  (∀ bs : List Byte, be (unBE bs) bs.length = bs) ∧
  (∀ (b : Byte) (bs : List Byte), unBE (b :: bs) = b.toNat * 2 ^ (8 * bs.length) + unBE bs)

/-- 41_codec R150: `decode_signed` is two's-complement reading at the configured width, in its range. -/
def Obligations.SignedDecode : Prop :=
  ∀ (w : Width) (raw : Nat), raw < 2 ^ w.bits →
    decodeSigned raw w = (if raw.testBit (w.bits - 1) then (raw : Int) - 2 ^ w.bits else raw) ∧
    decodeSigned raw w = (BitVec.ofNat w.bits raw).toInt ∧
    -(2 ^ (w.bits - 1) : Int) ≤ decodeSigned raw w ∧ decodeSigned raw w ≤ 2 ^ (w.bits - 1) - 1

/-- 41_codec R151: `encode_signed` is `v mod 2^w`; decoding gives `v` back in the range, and outside it `v - k*2^w` for the one
`k` that brings it into range. -/
def Obligations.SignedEncode : Prop :=
  ∀ (w : Width) (v : Int),
    ((encodeSigned v w : Nat) : Int) = v % 2 ^ w.bits ∧ encodeSigned v w < 2 ^ w.bits ∧
    (-(2 ^ (w.bits - 1) : Int) ≤ v → v ≤ 2 ^ (w.bits - 1) - 1 → decodeSigned (encodeSigned v w) w = v) ∧
    (∃ k : Int, decodeSigned (encodeSigned v w) w = v - k * 2 ^ w.bits ∧
      -(2 ^ (w.bits - 1) : Int) ≤ v - k * 2 ^ w.bits ∧ v - k * 2 ^ w.bits ≤ 2 ^ (w.bits - 1) - 1 ∧
      ∀ k' : Int, -(2 ^ (w.bits - 1) : Int) ≤ v - k' * 2 ^ w.bits →
        v - k' * 2 ^ w.bits ≤ 2 ^ (w.bits - 1) - 1 → k' = k)

/-- 41_codec R154: the round-trip law, "given width is set to w first", with the reference device alone on the channel: after `SET_FIELD(bits, w)`
and `SET_COUNTS(v)`, `GET_COUNTS` returns `v`, for every width and every `v` in its range. -/
def Obligations.CountsRoundTrip : Prop :=
  ∀ (s : State) (w : Width) (v : Int) (rest : List Command),
    s.Inv → s.Calm → s.block = .idle →
    s.requests = .setField .bits (.int w.bits) :: .setCounts v :: .getCounts :: rest →
    -(2 ^ (w.bits - 1) : Int) ≤ v → v ≤ 2 ^ (w.bits - 1) - 1 →
    ∃ t, steps 10 s = .next t ∧ t.block = .idle ∧ t.requests = rest ∧
      t.results = (.getCounts, .ok (.int v)) :: (.setCounts v, .ok .unit) ::
        (.setField .bits (.int w.bits), .ok .unit) :: s.results

/-- 70 R276: `LOAD(OTR)` and then `READ_REG(OTR)` return the count of the moment of the load, even if CNTR and STR move in between. -/
def Obligations.SnapshotReads : Prop :=
  ∀ (s : State) (rest : List Command) (e e' e'' : Byte) (cntr : WideWord) (str : Byte) (env : List Draw),
    s.Inv → s.block = .idle → s.requests = .load .otr :: .readReg .otr :: rest →
    s.env = { change := .quiet, answer := .device e } ::
      { change := .activity cntr s.dev.cntr str, answer := .device e' } ::
      { change := .quiet, answer := .device e'' } :: env →
    ∃ t, steps 5 s = .next t ∧ t.block = .idle ∧
      t.results = (.readReg .otr, .ok (.nat (s.dev.cntr.toNat % 2 ^ (queriedWidth s.params s.dev.mdr1).bits))) ::
        (.load .otr, .ok .unit) :: s.results

/-! ### Fields -/

/-- 42_mode_fields R184: the isolation law, for every legal layout. -/
def Obligations.FieldIsolation : Prop :=
  ∀ (p : Params) (f : Field) (x : Logical) (code : Nat) (b : Byte),
    p.legal = true → codeOf p f x = some code →
    merged p f code b &&& ~~~(BitVec.ofNat 8 (fieldMask f) <<< shiftOf p.layout f) =
      b &&& ~~~(BitVec.ofNat 8 (fieldMask f) <<< shiftOf p.layout f) ∧
    ((merged p f code b >>> shiftOf p.layout f) &&& BitVec.ofNat 8 (fieldMask f)).toNat = code ∧
    (∀ g, g ≠ f → holder g = holder f → fieldCode p g (merged p f code b) = fieldCode p g b) ∧
    (p.layout = .standard → holder f = .mdr1 → (merged p f code b).getLsbD 3 = b.getLsbD 3)

/-- 10_state R30, 42_mode_fields R180: every map is a bijection between its domain and all `2^width` codes. -/
def Obligations.FieldMapsBijective : Prop :=
  ∀ (p : Params) (f : Field), p.legal = true →
    (∀ c, c ≤ fieldMask f → codeOf p f (logicalOf p f c) = some c) ∧
    (∀ x c, codeOf p f x = some c → c ≤ fieldMask f ∧ logicalOf p f c = x) ∧
    (∀ x, x ∈ domain p f ↔ ∃ c, codeOf p f x = some c)

/-- 42_mode_fields R190 to R197 at the default layout: the merge of each mode field with the masks the rules write out. -/
def Obligations.ModeFieldMasks : Prop :=
  ∀ (p : Params) (b : Byte) (c : Nat), p.layout = .standard →
    mergeField p .quadrature c b = (b &&& 0xFC) ||| BitVec.ofNat 8 c ∧
    mergeField p .countMode c b = (b &&& 0xF3) ||| (BitVec.ofNat 8 c <<< 2) ∧
    mergeField p .indexMode c b = (b &&& 0xCF) ||| (BitVec.ofNat 8 c <<< 4) ∧
    mergeField p .indexSync c b = (b &&& 0xBF) ||| (BitVec.ofNat 8 c <<< 6) ∧
    mergeField p .filterDiv c b = (b &&& 0x7F) ||| (BitVec.ofNat 8 c <<< 7) ∧
    mergeField p .bits c b = (b &&& 0xFC) ||| BitVec.ofNat 8 c ∧
    mergeField p .enabled c b = (b &&& 0xFB) ||| (BitVec.ofNat 8 c <<< 2) ∧
    mergeField p .flagSources c b = (b &&& 0x0F) ||| (BitVec.ofNat 8 c <<< 4)

/-- The map column of 10_state R30 at the default `WIDTH_OF`, whole: for each field, which logical value has which code and which
values are in the domain, by membership (the order of `domain` is the model's and says nothing, log entry 13). -/
def Obligations.FieldCodes : Prop :=
  ∀ p : Params, p.widthOf = .standard →
    MapIs p .quadrature [(.int 0, 0), (.int 1, 1), (.int 2, 2), (.int 4, 3)] ∧
    MapIs p .countMode
      [(.option .freeRun, 0), (.option .singleCycle, 1), (.option .rangeLimit, 2), (.option .moduloN, 3)] ∧
    MapIs p .indexMode
      [(.option .disabled, 0), (.option .loadCntr, 1), (.option .resetCntr, 2), (.option .loadOtr, 3)] ∧
    MapIs p .indexSync [(.option .asynchronous, 0), (.option .synchronous, 1)] ∧
    MapIs p .filterDiv [(.int 1, 0), (.int 2, 1)] ∧
    MapIs p .bits [(.int 32, 0), (.int 24, 1), (.int 16, 2), (.int 8, 3)] ∧
    MapIs p .enabled [(.bool true, 0), (.bool false, 1)] ∧
    MapIs p .flagSources
      [(.int 0, 0), (.int 1, 1), (.int 2, 2), (.int 3, 3), (.int 4, 4), (.int 5, 5), (.int 6, 6), (.int 7, 7),
        (.int 8, 8), (.int 9, 9), (.int 10, 10), (.int 11, 11), (.int 12, 12), (.int 13, 13), (.int 14, 14),
        (.int 15, 15)] ∧
    ∀ f, holder f = .str → MapIs p f [(.bool false, 0), (.bool true, 1)]

/-- 42_mode_fields R200 to R207: `GET_FIELD` of each status field at the default layout is one bit of the STR byte read. -/
def Obligations.StatusFieldBits : Prop :=
  ∀ (s : State) (f : Field) (m : Byte) (x b : Byte) (w : Option Width) (held : Option Byte),
    s.params.layout = .standard →
    (f, m) ∈ [(Field.sign, (0x01 : Byte)), (.direction, 0x02), (.powerLoss, 0x04), (.countEnableEcho, 0x08),
      (.indexLatch, 0x10), (.compareLatch, 0x20), (.borrowLatch, 0x40), (.carryLatch, 0x80)] →
    s.block = .busy (.getField f) 0 w held →
    s.reply .exchange [0x40 ||| statusByte s.params.statusCode, 0x00] = .returned [x, b] →
    exec .rdStr s = .next
      (after s .exchange [0x40 ||| statusByte s.params.statusCode, 0x00] (.returned [x, b]) s.arrival .idle
        [(.getField f, .ok (.logical (.bool ((b &&& m) ≠ 0))))])

/-- 42_mode_fields R208 with R200 to R207: the eight flags a caller decodes from one `READ_REG(STR)` are what the eight getters would
give of that byte, at every legal layout. -/
def Obligations.StatusViewAgrees : Prop :=
  ∀ (p : Params) (str : Byte), p.legal = true →
    fieldValue p .sign str = .bool (statusView p str).sign ∧
    fieldValue p .direction str = .bool (statusView p str).direction ∧
    fieldValue p .powerLoss str = .bool (statusView p str).powerLoss ∧
    fieldValue p .countEnableEcho str = .bool (statusView p str).countEnableEcho ∧
    fieldValue p .indexLatch str = .bool (statusView p str).indexLatch ∧
    fieldValue p .compareLatch str = .bool (statusView p str).compareLatch ∧
    fieldValue p .borrowLatch str = .bool (statusView p str).borrowLatch ∧
    fieldValue p .carryLatch str = .bool (statusView p str).carryLatch

/-- 42_mode_fields R187: `SET_FIELD(f, x)` followed by `GET_FIELD(f)` returns `x`, under EXCLUSIVE and SETTLED with a device that answers,
and that may meanwhile count, latch and change OTR. A status field has no setter. MDR0 and MDR1 are as they were but for the merge
into the holder. -/
def Obligations.GetAfterSet : Prop :=
  (∀ (s : State) (f : Field) (x : Logical) (code : Nat) (rest : List Command),
    s.Inv → s.Exclusive → s.block = .idle → s.requests = .setField f x :: .getField f :: rest →
    readOnly f = false → codeOf s.params f x = some code →
    ∃ t, steps 5 s = .next t ∧ t.block = .idle ∧ t.requests = rest ∧
      t.results = (.getField f, .ok (.logical x)) :: (.setField f x, .ok .unit) :: s.results ∧
      t.dev.mdr0 =
        (withHolder f (merged s.params f code (if holder f = .mdr0 then s.dev.mdr0 else s.dev.mdr1)) s.dev).mdr0 ∧
      t.dev.mdr1 =
        (withHolder f (merged s.params f code (if holder f = .mdr0 then s.dev.mdr0 else s.dev.mdr1)) s.dev).mdr1) ∧
  (∀ (s : State) (f : Field) (x : Logical) (rest : List Command),
    s.block = .idle → s.requests = .setField f x :: rest → holder f = .str →
    step s = .next
      { s with requests := rest, results := (.setField f x, .refused (.readOnlyField f)) :: s.results })

/-- 20_memory R60: a frame that reaches the device in two transactions in a row leaves what it left once. The two have indices `k` and
`k'` of their own, so that no free value is used twice; the payload has the frame's length at the device's width. -/
def Obligations.FramesIdempotent : Prop :=
  ∀ (p : Params) (k k' : Nat) (d : Device) (i : Instr) (payload : List Byte),
    payload.length = payloadLen i (widthOfByte p d.mdr1) →
    afterInstr p k' (afterInstr p k d payload i) payload i = afterInstr p k d payload i
end

