-- ==== Sys2Proof/Laws/Bytes.lean ====
section
/-! SUPPORT. Byte order, the signed count at the configured width, and fields of a byte. -/

namespace Sys2Proof.Machine

@[simp] theorem length_be (v n : Nat) : (be v n).length = n := by
  induction n with
  | zero => rfl
  | succ n ih => simp [be, ih]

@[simp] theorem length_zeros (n : Nat) : (zeros n).length = n := by simp [zeros]

theorem unBE_append_singleton (bs : List Byte) (b : Byte) : unBE (bs ++ [b]) = unBE bs * 256 + b.toNat := by
  have hb : b.toNat < 2 ^ 8 := b.isLt
  simp only [unBE, List.foldl_append, List.foldl_cons, List.foldl_nil]
  rw [← Nat.shiftLeft_add_eq_or_of_lt hb, Nat.shiftLeft_eq]

/-- The last byte of an encoding is the lowest one. -/
theorem be_succ_append (v n : Nat) : be v (n + 1) = be (v / 256) n ++ [BitVec.ofNat 8 v] := by
  induction n with
  | zero => simp [be]
  | succ n ih =>
    have hshift : v >>> (8 * (n + 1)) = (v / 256) >>> (8 * n) := by
      have hpow : 2 ^ (8 * (n + 1)) = 256 * 2 ^ (8 * n) := by rw [Nat.mul_add, pow_add]; norm_num [mul_comm]
      rw [Nat.shiftRight_eq_div_pow, Nat.shiftRight_eq_div_pow, Nat.div_div_eq_div_mul, hpow]
    rw [be, ih, hshift]
    rfl

/-- Decoding an n-byte big-endian encoding gives the value modulo 2^(8n). -/
theorem unBE_be (v n : Nat) : unBE (be v n) = v % 2 ^ (8 * n) := by
  induction n generalizing v with
  | zero => simp [be, unBE, Nat.mod_one]
  | succ n ih =>
    rw [be_succ_append, unBE_append_singleton, ih, BitVec.toNat_ofNat]
    have : 2 ^ (8 * (n + 1)) = 256 * 2 ^ (8 * n) := by rw [Nat.mul_add, pow_add]; norm_num [mul_comm]
    rw [this, Nat.mod_mul]
    omega

theorem unBE_lt (bs : List Byte) : unBE bs < 2 ^ (8 * bs.length) := by
  induction bs using List.reverseRecOn with
  | nil => simp [unBE]
  | append_singleton bs b ih =>
    rw [unBE_append_singleton, List.length_append, List.length_singleton, Nat.mul_add, pow_add]
    have := b.isLt
    norm_num at *
    omega

@[simp] theorem unBE_singleton (b : Byte) : unBE [b] = b.toNat := by simp [unBE]

end Sys2Proof.Machine
end

