-- ==== Sys2Proof/Laws/Encoding.lean ====
section
/-! SUPPORT. The instruction byte: decoding what the encoder makes, and the pair of an instruction. -/

namespace Sys2Proof

@[simp] theorem instrOf_opOf_regOf (i : Instr) : instrOf (opOf i) (regOf i) = i := by cases i <;> rfl

@[simp] theorem opOf_instrOf (op : Op) (reg : Reg) : opOf (instrOf op reg) = op := by cases op <;> cases reg <;> rfl

@[simp] theorem regOf_instrOf (op : Op) (reg : Reg) : regOf (instrOf op reg) = reg := by cases op <;> cases reg <;> rfl

/-- The observer recovers the pair from the instruction byte (30_encoding R85). -/
@[simp] theorem decodeByte_encodeByte (p : Params) (op : Op) (reg : Reg) :
    decodeByte p (encodeByte p op reg) = .ok (instrOf op reg) := by
  cases h : p.statusCode <;> cases op <;> cases reg <;>
    simp [decodeByte, encodeByte, regOfSelect, opOfBits, h, opByte, regByte, statusByte]

@[simp] theorem decode_encodeByte (p : Params) (op : Op) (reg : Reg) (rest : List Byte) :
    decode p (encodeByte p op reg :: rest) = .ok (instrOf op reg, rest) := by
  simp [decode]

/-- Decoding what the encoder makes gives the instruction back, and leaves the bytes after it. -/
theorem decode_encode_append (p : Params) (i : Instr) (rest : List Byte) :
    decode p (encode p i ++ rest) = .ok (i, rest) := by
  simp [encode]

theorem encodeByte_injective (p : Params) {op op' : Op} {reg reg' : Reg}
    (h : encodeByte p op reg = encodeByte p op' reg') : op = op' ∧ reg = reg' := by
  have h' : (Except.ok (instrOf op reg) : Except DecodeError Instr) = .ok (instrOf op' reg') := by
    rw [← decodeByte_encodeByte p, ← decodeByte_encodeByte p, h]
  injection h' with h'
  exact ⟨by simpa using congrArg opOf h', by simpa using congrArg regOf h'⟩

/-- A frame whose payload has the length of its instruction at width `w` comes off the front of a stream whole. -/
theorem decodeFrame_encodeFrame (p : Params) (w : Width) (f : Frame) (rest : List Byte)
    (h : f.payload.length = payloadLen f.instr w) :
    decodeFrame p w (encodeFrame p f ++ rest) = some (f, rest) := by
  have hd := decode_encode_append p f.instr (f.payload ++ rest)
  obtain ⟨i, payload⟩ := f
  simp only [decodeFrame, encodeFrame, List.append_assoc, hd]
  simp only [← h, List.length_append, Nat.le_add_right, if_true, List.take_left', List.drop_left']

theorem Width.bytes_pos (w : Width) : 1 ≤ w.bytes := by cases w <;> decide

theorem Width.bytes_le (w : Width) : w.bytes ≤ 4 := by cases w <;> decide

theorem Width.bits_eq (w : Width) : w.bits = 8 * w.bytes := by cases w <;> rfl

end Sys2Proof
end

