-- ==== Sys2Proof/Laws/Fields.lean ====
section
/-! SUPPORT. Fields: codes, masks, legal layouts, and the sign at the configured width. -/

namespace Sys2Proof.Machine

/-- A hit of `lookup` is an entry. -/
theorem mem_of_lookup {α β} [DecidableEq α] {l : List (α × β)} {x c} (h : l.lookup x = some c) : (x, c) ∈ l := by
  induction l with
  | nil => simp at h
  | cons a l ih =>
    obtain ⟨a1, a2⟩ := a
    simp only [List.lookup] at h
    split at h
    · cases h; rename_i hx; have := eq_of_beq hx; subst this; simp
    · exact List.mem_cons_of_mem _ (ih h)

/-- An entry of a map without repeated values is found by `lookup`. -/
theorem lookup_of_mem {α β} [DecidableEq α] {l : List (α × β)} (hn : (l.map Prod.fst).Nodup) {x c} (h : (x, c) ∈ l) :
    l.lookup x = some c := by
  induction l with
  | nil => simp at h
  | cons a l ih =>
    obtain ⟨a1, a2⟩ := a
    simp only [List.map_cons, List.nodup_cons] at hn
    rcases List.mem_cons.1 h with heq | hmem
    · cases heq; simp [List.lookup]
    · have hx : x ≠ a1 := by rintro rfl; exact hn.1 (List.mem_map.2 ⟨(x, c), hmem, rfl⟩)
      simp [List.lookup, beq_eq_false_iff_ne.mpr hx, ih hn.2 hmem]

/-- An operand has no code exactly where it is outside the domain (42_mode_fields R180, R181). -/
theorem lookup_none {p f x} : codeOf p f x = none ↔ x ∉ domain p f := by
  unfold codeOf domain
  generalize fieldMap p f = l
  induction l with
  | nil => simp
  | cons a l ih =>
    obtain ⟨a1, a2⟩ := a
    simp only [List.lookup, List.map_cons, List.mem_cons]
    by_cases hx : x = a1
    · subst hx; simp
    · simp [hx, beq_eq_false_iff_ne.mpr hx, ih]

/-- A width code is two bits. -/
theorem codeOfWidth_lt (t w) : codeOfWidth t w < 4 := by unfold codeOfWidth; split_ifs <;> omega

/-- A code fits its field. -/
theorem codeOf_le {p f x c} (h : codeOf p f x = some c) : c ≤ fieldMask f := by
  have hm := mem_of_lookup h
  have a8 := codeOfWidth_lt p.widthOf .w8
  have a16 := codeOfWidth_lt p.widthOf .w16
  have a24 := codeOfWidth_lt p.widthOf .w24
  have a32 := codeOfWidth_lt p.widthOf .w32
  cases f <;> simp [fieldMap, fieldMask, fieldWidth] at hm ⊢ <;> omega

/-- A bijective `WIDTH_OF` and its inverse (10_state R32). -/
theorem width_code {t : WidthOf} (h : t.bijective = true) : (∀ c, c ≤ 3 → codeOfWidth t (widthOfCode t c) = c) ∧
    (∀ w, widthOfCode t (codeOfWidth t w) = w) := by
  obtain ⟨a, b, c, d⟩ := t
  have h8 : ∀ w, w = a ∨ w = b ∨ w = c ∨ w = d := by
    intro w; simp [WidthOf.bijective] at h; cases w <;> simp_all
  have hne : a ≠ b ∧ a ≠ c ∧ a ≠ d ∧ b ≠ c ∧ b ≠ d ∧ c ≠ d := by
    clear h8; revert h; cases a <;> cases b <;> cases c <;> cases d <;> decide
  obtain ⟨h1, h2, h3, h4, h5, h6⟩ := hne
  constructor
  · intro n hn
    obtain rfl | rfl | rfl | rfl : n = 0 ∨ n = 1 ∨ n = 2 ∨ n = 3 := by omega
    all_goals simp [widthOfCode, codeOfWidth, *]
  · intro w
    rcases h8 w with rfl | rfl | rfl | rfl <;> simp [widthOfCode, codeOfWidth, *]

/-- A legal layout keeps every field in its byte. -/
theorem legal_fits {p : Params} (h : p.legal = true) (f) : shiftOf p.layout f + fieldWidth f ≤ 8 := by
  simp [Params.legal, Layout.fits] at h
  exact h.1.1.2 f (by cases f <;> simp [Field.all])

/-- A legal layout keeps two fields of one holder apart. -/
theorem legal_disjoint {p : Params} (h : p.legal = true) (f g) (hne : g ≠ f) (hh : holder g = holder f) :
    shiftOf p.layout f + fieldWidth f ≤ shiftOf p.layout g ∨
    shiftOf p.layout g + fieldWidth g ≤ shiftOf p.layout f := by
  simp [Params.legal, Layout.disjoint] at h
  have := h.1.2 f (by cases f <;> simp [Field.all]) g (by cases g <;> simp [Field.all])
  rcases this with ((h | h) | h) | h
  · exact absurd h.symm hne
  · exact absurd hh.symm h
  · exact .inl h
  · exact .inr h

/-- The bits of a mask. -/
theorem mask_bit (f i) : (BitVec.ofNat 8 (fieldMask f)).getLsbD i = decide (i < fieldWidth f) := by
  have : fieldWidth f ≤ 8 := by cases f <;> decide
  rw [BitVec.getLsbD_ofNat, fieldMask, Nat.testBit_two_pow_sub_one]
  by_cases h : i < fieldWidth f <;> simp [h]; omega

/-- A code has no bit above its field. -/
theorem code_bit {f c i} (h : c ≤ fieldMask f) (hi : fieldWidth f ≤ i) : c.testBit i = false := by
  apply Nat.testBit_lt_two_pow
  calc c < 2 ^ fieldWidth f := by have : 1 ≤ 2 ^ fieldWidth f := Nat.one_le_two_pow
                                  unfold fieldMask at h; omega
    _ ≤ 2 ^ i := Nat.pow_le_pow_right (by omega) hi

/-- The value of one byte. -/
theorem headD_unBE {rx : List Byte} (h : rx.length = 1) : unBE rx = (rx.headD 0).toNat := by
  obtain ⟨b, rfl⟩ := List.length_eq_one_iff.mp h; simp

/-- The top bit says which half. -/
theorem testBit_iff (raw n : Nat) (h : raw < 2 ^ (n+1)) : raw.testBit n = decide (2 ^ n ≤ raw) := by
  rw [Nat.testBit_eq_decide_div_mod_eq]
  congr 1
  have : raw / 2 ^ n < 2 := by rw [Nat.div_lt_iff_lt_mul (by positivity)]; rw [pow_succ] at h; omega
  rw [Nat.mod_eq_of_lt this]
  apply propext
  constructor
  · intro h; have := Nat.div_mul_le_self raw (2^n); rw [h] at this; omega
  · intro h; have : 1 ≤ raw / 2^n := by rw [Nat.le_div_iff_mul_le (by positivity)]; omega
    omega

/-- `decode_signed` by halves of the range. -/
theorem decodeSigned_eq (w : Width) (raw : Nat) (h : raw < 2 ^ w.bits) :
    decodeSigned raw w = if 2 ^ (w.bits - 1) ≤ raw then (raw : Int) - 2 ^ w.bits else raw := by
  unfold decodeSigned
  rw [testBit_iff raw (w.bits - 1) (by cases w <;> exact h)]
  simp

/-- Widths differ in their byte lengths. -/
theorem width_inj (w w' : Width) : w.bytes = w'.bytes ↔ w = w' := by cases w <;> cases w' <;> decide

end Sys2Proof.Machine
end

