-- ==== Sys2Proof/Laws/State.lean ====
section
/-! SUPPORT. One lemma per field per state update: `transacted`, `deliver`, `advance`, `latch`, `placeInstr`. -/

namespace Sys2Proof.Machine

section transacted
variable (s : State) (prim : Primitive) (out : List Byte)

@[simp] theorem State.transacted_params : (s.transacted prim out).params = s.params := rfl
@[simp] theorem State.transacted_block : (s.transacted prim out).block = s.block := rfl
@[simp] theorem State.transacted_requests : (s.transacted prim out).requests = s.requests := rfl
@[simp] theorem State.transacted_results : (s.transacted prim out).results = s.results := rfl
@[simp] theorem State.transacted_bus :
    (s.transacted prim out).bus = { prim := prim, out := out, reply := s.reply prim out } :: s.bus := rfl
@[simp] theorem State.transacted_env : (s.transacted prim out).env = s.env.tail := rfl
@[simp] theorem State.transacted_world : (s.transacted prim out).world = s.world := rfl
@[simp] theorem State.transacted_dev : (s.transacted prim out).dev = s.landing out := rfl
@[simp] theorem State.transacted_drawn : (s.transacted prim out).drawn = s.drawn + 1 := rfl

end transacted

section deliver
variable (s : State) (r : Result)

@[simp] theorem State.deliver_params : (s.deliver r).params = s.params := rfl
@[simp] theorem State.deliver_block : (s.deliver r).block = .idle := rfl
@[simp] theorem State.deliver_requests : (s.deliver r).requests = s.requests := rfl
theorem State.deliver_results {s : State} {c : Command} {k : Nat} {w : Option Width} {held : Option Byte} (r : Result)
    (h : s.block = .busy c k w held) : (s.deliver r).results = (c, r) :: s.results := by
  simp [State.deliver, h]
@[simp] theorem State.deliver_bus : (s.deliver r).bus = s.bus := rfl
@[simp] theorem State.deliver_env : (s.deliver r).env = s.env := rfl
@[simp] theorem State.deliver_world : (s.deliver r).world = s.world := rfl
@[simp] theorem State.deliver_dev : (s.deliver r).dev = s.dev := rfl
@[simp] theorem State.deliver_drawn : (s.deliver r).drawn = s.drawn := rfl

end deliver

section advance
variable (s : State) (w : Option Width) (held : Option Byte)

@[simp] theorem State.advance_params : (s.advance w held).params = s.params := rfl
theorem State.advance_block {s : State} {c : Command} {k : Nat} {w' : Option Width} {held' : Option Byte}
    (w : Option Width) (held : Option Byte) (h : s.block = .busy c k w' held') :
    (s.advance w held).block = .busy c (k + 1) w held := by
  simp [State.advance, h]
@[simp] theorem State.advance_requests : (s.advance w held).requests = s.requests := rfl
@[simp] theorem State.advance_results : (s.advance w held).results = s.results := rfl
@[simp] theorem State.advance_bus : (s.advance w held).bus = s.bus := rfl
@[simp] theorem State.advance_env : (s.advance w held).env = s.env := rfl
@[simp] theorem State.advance_world : (s.advance w held).world = s.world := rfl
@[simp] theorem State.advance_dev : (s.advance w held).dev = s.dev := rfl
@[simp] theorem State.advance_drawn : (s.advance w held).drawn = s.drawn := rfl

end advance

section latch
variable (s : State) (v : Nat)

@[simp] theorem State.latch_params : (s.latch v).params = s.params := rfl
theorem State.latch_block {s : State} {c : Command} {k : Nat} {w : Option Width} {held : Option Byte} (v : Nat)
    (h : s.block = .busy c k w held) :
    (s.latch v).block = .busy c (k + 1) (some (widthOfByte s.params (BitVec.ofNat 8 v))) none :=
  State.advance_block _ _ h
@[simp] theorem State.latch_requests : (s.latch v).requests = s.requests := rfl
@[simp] theorem State.latch_results : (s.latch v).results = s.results := rfl
@[simp] theorem State.latch_bus : (s.latch v).bus = s.bus := rfl
@[simp] theorem State.latch_env : (s.latch v).env = s.env := rfl
@[simp] theorem State.latch_world : (s.latch v).world = s.world := rfl
@[simp] theorem State.latch_dev : (s.latch v).dev = s.dev := rfl
@[simp] theorem State.latch_drawn : (s.latch v).drawn = s.drawn := rfl

end latch

section placeInstr
variable (s : State) (i : Instr)

@[simp] theorem State.placeInstr_params : (s.placeInstr i).params = s.params := rfl
@[simp] theorem State.placeInstr_block : (s.placeInstr i).block = rawBusy s i := rfl
@[simp] theorem State.placeInstr_requests : (s.placeInstr i).requests = s.requests := rfl
@[simp] theorem State.placeInstr_results : (s.placeInstr i).results = s.results := rfl
@[simp] theorem State.placeInstr_bus : (s.placeInstr i).bus = s.bus := rfl
@[simp] theorem State.placeInstr_world : (s.placeInstr i).world = s.world := rfl
@[simp] theorem State.placeInstr_dev : (s.placeInstr i).dev = s.dev := rfl
@[simp] theorem State.placeInstr_drawn : (s.placeInstr i).drawn = s.drawn := rfl

end placeInstr

end Sys2Proof.Machine
end

