-- ==== Sys2Proof/Laws/Ops.lean ====
section
/-! SUPPORT. What each shared operation can do, said once: `exec` by pair, `fetch`, `step`, a transaction, and what follows a read or a write. -/

namespace Sys2Proof.Machine

/-- `exec` by operation and register. -/
theorem exec_instrOf (op : Op) (reg : Reg) (s : State) :
    exec (instrOf op reg) s =
      if admitted op reg then
        match op with
        | .read => runRead reg s
        | .write => runWrite reg s
        | .clear => runControl .clear reg s
        | .load => runControl .load reg s
      else refusePair op reg s := by
  cases op <;> cases reg <;> rfl

theorem State.current_idle {s : State} (h : s.block = .idle) : s.current = none := by simp [State.current, h]

theorem State.current_busy {s : State} {c : Command} {k : Nat} {w : Option Width} {held : Option Byte}
    (h : s.block = .busy c k w held) : s.current = (program c)[k]? := by simp [State.current, h]

/-- The fetched instruction is that of the current pair. -/
theorem State.fetch_eq (s : State) : s.fetch = s.current.map fun q => instrOf q.1 q.2 := by
  unfold State.fetch State.currentByte
  cases h : s.current with
  | none => rfl
  | some q => obtain ⟨op, reg⟩ := q; simp

/-- A step of a busy block runs the instruction of the current pair. -/
theorem step_busy {s : State} {c : Command} {k : Nat} {w : Option Width} {held : Option Byte} {op : Op} {reg : Reg}
    (hb : s.block = .busy c k w held) (hc : (program c)[k]? = some (op, reg)) :
    step s = exec (instrOf op reg) s := by
  simp [step, hb, State.fetch_eq, State.current_busy hb, hc]

theorem step_idle {s : State} (hb : s.block = .idle) : step s = .next s.accept := by simp [step, hb]

/-- Everything a step that answers a next state does. -/
theorem step_cases {s t : State} (h : step s = .next t) :
    (s.block = .idle ∧ t = s.accept) ∨
    ∃ c k w held op reg, s.block = .busy c k w held ∧ (program c)[k]? = some (op, reg) ∧
      exec (instrOf op reg) s = .next t := by
  cases hb : s.block with
  | idle =>
    rw [step_idle hb] at h
    cases h
    exact .inl ⟨rfl, rfl⟩
  | busy c k w held =>
    cases hc : (program c)[k]? with
    | none => simp [step, hb, State.fetch_eq, State.current_busy hb, hc] at h
    | some q =>
      obtain ⟨op, reg⟩ := q
      rw [step_busy hb hc] at h
      exact .inr ⟨c, k, w, held, op, reg, rfl, hc, h⟩

/-- Everything accepting does. -/
theorem State.accept_cases (s : State) :
    (s.requests = [] ∧ s.accept = s) ∨
    (∃ c rest, s.requests = c :: rest ∧ verdict s.params c = none ∧
      s.accept = { s with block := .busy c 0 none none, requests := rest }) ∨
    (∃ c rest r, s.requests = c :: rest ∧ verdict s.params c = some r ∧
      s.accept = { s with requests := rest, results := (c, r) :: s.results }) := by
  unfold State.accept
  cases hr : s.requests with
  | nil => exact .inl ⟨rfl, rfl⟩
  | cons c rest =>
    cases hv : verdict s.params c with
    | none => exact .inr (.inl ⟨c, rest, rfl, hv, by simp [hv]⟩)
    | some r => exact .inr (.inr ⟨c, rest, r, rfl, hv, by simp [hv]⟩)

/-- Everything a transaction that answers a next state does. -/
theorem State.transact_cases {s t : State} {prim : Primitive} {out : List Byte} (h : s.transact prim out = .next t) :
    (s.reply prim out = .silent ∧ t = s) ∨
    (∃ e, s.reply prim out = .failed e ∧ t = (s.transacted prim out).deliver (.transportError e)) ∨
    (∃ rx, s.reply prim out = .returned rx ∧ prim = .write ∧ t = (s.transacted prim out).afterWrite) ∨
    (∃ rx, s.reply prim out = .returned rx ∧ prim = .exchange ∧ rx.length ≠ out.length ∧
      t = (s.transacted prim out).deliver (.lengthMismatch out.length rx.length)) ∨
    (∃ rx, s.reply prim out = .returned rx ∧ prim = .exchange ∧ rx.length = out.length ∧
      (s.transacted prim out).afterRead (unBE rx.tail) = .next t) := by
  unfold State.transact at h
  cases hr : s.reply prim out with
  | silent => simp only [hr] at h; cases h; exact .inl ⟨rfl, rfl⟩
  | failed e => simp only [hr] at h; cases h; exact .inr (.inl ⟨e, rfl, rfl⟩)
  | returned rx =>
    cases prim with
    | write => simp only [hr] at h; cases h; exact .inr (.inr (.inl ⟨rx, rfl, rfl, rfl⟩))
    | exchange =>
      simp only [hr] at h
      split at h
      · exact .inr (.inr (.inr (.inr ⟨rx, rfl, rfl, ‹_›, h⟩)))
      · cases h; exact .inr (.inr (.inr (.inl ⟨rx, rfl, rfl, ‹_›, rfl⟩)))

/-- Everything that follows a read which answers a next state: only `block` and `results` change, and either the command goes
on to its next transaction or one result is delivered. -/
theorem State.afterRead_cases {s t : State} {c : Command} {k v : Nat} {w : Option Width} {held : Option Byte}
    (hb : s.block = .busy c k w held) (h : s.afterRead v = .next t) :
    t = s.latch v ∨ t = s.advance none (some (BitVec.ofNat 8 v)) ∨ ∃ x, t = s.deliver (.ok x) := by
  unfold State.afterRead at h
  rw [hb] at h
  cases c <;> simp only at h
  case readReg reg =>
    split at h <;> cases h
    · exact .inl rfl
    · exact .inr (.inr ⟨_, rfl⟩)
  case getCounts =>
    split at h
    · cases h; exact .inl rfl
    · cases w <;> cases h
      exact .inr (.inr ⟨_, rfl⟩)
  case writeReg => cases h; exact .inl rfl
  case setCounts => cases h; exact .inl rfl
  case getField => cases h; exact .inr (.inr ⟨_, rfl⟩)
  case setField => cases h; exact .inr (.inl rfl)
  all_goals cases h

/-- Everything that follows a completed write or control transaction. -/
theorem State.afterWrite_cases {s : State} {c : Command} {k : Nat} {w : Option Width} {held : Option Byte}
    (hb : s.block = .busy c k w held) :
    (k + 1 < (program c).length ∧ s.afterWrite = s.advance w held) ∨
    ((program c).length ≤ k + 1 ∧ s.afterWrite = s.deliver (.ok .unit)) := by
  unfold State.afterWrite
  rw [hb]
  by_cases hk : k + 1 < (program c).length
  · exact .inl ⟨hk, if_pos hk⟩
  · exact .inr ⟨not_lt.mp hk, if_neg hk⟩

/-- Everything `exec` that answers a next state does: the refusal of a pair that is not admitted, or one transaction of a
frame of its pair. -/
theorem exec_cases {s t : State} {op : Op} {reg : Reg} (h : exec (instrOf op reg) s = .next t) :
    s.current = some (op, reg) ∧
    ((admitted op reg = false ∧ t = s.deliver (.refused (.unadmittedPair op reg))) ∨
     (admitted op reg = true ∧ op = .read ∧ ∃ n, s.transferBytes reg = some n ∧
        s.transact .exchange (readFrame s.params reg n) = .next t) ∨
     (admitted op reg = true ∧ op = .write ∧ ∃ n v, s.transferBytes reg = some n ∧ s.writeValue = some v ∧
        s.transact .write (writeFrame s.params reg n v) = .next t) ∨
     (admitted op reg = true ∧ (op = .clear ∨ op = .load) ∧
        s.transact .write (ctrlFrame s.params op reg) = .next t)) := by
  rw [exec_instrOf] at h
  cases ha : admitted op reg with
  | false =>
    simp only [ha, Bool.false_eq_true, if_false, refusePair] at h
    split at h
    · cases h; exact ⟨‹_›, .inl ⟨rfl, rfl⟩⟩
    · cases h
  | true =>
    simp only [ha, if_true] at h
    cases op with
    | read =>
      simp only [runRead] at h
      split at h
      · split at h
        · exact ⟨‹_›, .inr (.inl ⟨rfl, rfl, _, ‹_›, h⟩)⟩
        · cases h
      · cases h
    | write =>
      simp only [runWrite] at h
      split at h
      · split at h
        · exact ⟨‹_›, .inr (.inr (.inl ⟨rfl, rfl, _, _, ‹_›, ‹_›, h⟩))⟩
        · cases h
        · cases h
      · cases h
    | clear =>
      simp only [runControl] at h
      split at h
      · exact ⟨‹_›, .inr (.inr (.inr ⟨rfl, .inl rfl, h⟩))⟩
      · cases h
    | load =>
      simp only [runControl] at h
      split at h
      · exact ⟨‹_›, .inr (.inr (.inr ⟨rfl, .inr rfl, h⟩))⟩
      · cases h

/-- What the device makes of a frame of an encoded byte. -/
@[simp] theorem deviceAfter_encodeByte (p : Params) (k : Nat) (d : Device) (op : Op) (reg : Reg) (payload : List Byte) :
    deviceAfter p k d (encodeByte p op reg :: payload) = afterInstr p k d payload (instrOf op reg) := by
  simp [deviceAfter]

@[simp] theorem deviceResponse_encodeByte (p : Params) (k : Nat) (d : Device) (op : Op) (reg : Reg)
    (filler : List Byte) :
    deviceResponse p k d (encodeByte p op reg :: filler) = responseTo p k d filler (instrOf op reg) := by
  simp [deviceResponse]

@[simp] theorem freeBytes_length (k n : Nat) : (freeBytes k n).length = n := by simp [freeBytes]

/-- A read changes no register of the device (20_memory R59, R70). -/
@[simp] theorem afterInstr_read (p : Params) (k : Nat) (d : Device) (payload : List Byte) (reg : Reg) :
    afterInstr p k d payload (instrOf .read reg) = d := by
  cases reg <;> rfl

end Sys2Proof.Machine
end

