-- ==== Sys2Proof/Laws/PerInstr.lean ====
section
/-! SUPPORT. The family RoundTrip: for each instruction, decoding its byte in front of any bytes gives it back. -/

namespace Sys2Proof.Laws.RoundTrip

/-- Decoding the instruction's byte gives the instruction, whatever the parameters and the bytes after it. -/
def Statement (i : Instr) : Prop :=
  i.wellFormed = true ∧ ∀ (p : Params) (rest : List Byte), decode p (encode p i ++ rest) = .ok (i, rest)

theorem all (i : Instr) : Statement i := ⟨by cases i <;> rfl, fun p rest => decode_encode_append p i rest⟩

theorem clrMdr0 : Statement .clrMdr0 := all _
theorem clrMdr1 : Statement .clrMdr1 := all _
theorem clrDtr : Statement .clrDtr := all _
theorem clrCntr : Statement .clrCntr := all _
theorem clrOtr : Statement .clrOtr := all _
theorem clrStr : Statement .clrStr := all _
theorem rdMdr0 : Statement .rdMdr0 := all _
theorem rdMdr1 : Statement .rdMdr1 := all _
theorem rdDtr : Statement .rdDtr := all _
theorem rdCntr : Statement .rdCntr := all _
theorem rdOtr : Statement .rdOtr := all _
theorem rdStr : Statement .rdStr := all _
theorem wrMdr0 : Statement .wrMdr0 := all _
theorem wrMdr1 : Statement .wrMdr1 := all _
theorem wrDtr : Statement .wrDtr := all _
theorem wrCntr : Statement .wrCntr := all _
theorem wrOtr : Statement .wrOtr := all _
theorem wrStr : Statement .wrStr := all _
theorem loadMdr0 : Statement .loadMdr0 := all _
theorem loadMdr1 : Statement .loadMdr1 := all _
theorem loadDtr : Statement .loadDtr := all _
theorem loadCntr : Statement .loadCntr := all _
theorem loadOtr : Statement .loadOtr := all _
theorem loadStr : Statement .loadStr := all _

end Sys2Proof.Laws.RoundTrip
end

