-- ==== Sys2Proof/Laws/Steps.lean ====
section
/-! SUPPORT. What a transaction, an instruction and a step leave, said once for all commands. -/

namespace Sys2Proof.Machine

/-- An instruction is that of its pair. -/
theorem exec_eq (i : Instr) : i = instrOf (opOf i) (regOf i) := by simp

/-- A primitive is silent exactly where the draw is. -/
theorem silent_iff (s : State) (prim out) : s.reply prim out = .silent ↔ s.nextDraw.answer = .silent := by
  unfold State.reply
  split <;> simp_all <;> split <;> simp

/-- A current pair means a command in progress. -/
theorem current_busy_of {s : State} {q} (h : s.current = some q) : ∃ c k w held, s.block = .busy c k w held := by
  cases hb : s.block with
  | idle => simp [State.current_idle hb] at h
  | busy c k w held => exact ⟨c, k, w, held, rfl⟩

/-- A frame changes at most the register its byte names, and a read changes none (20_memory R59, R70). -/
theorem afterInstr_frame (p k d payload i reg) (h : opOf i = .read ∨ reg ≠ regOf i) :
    deviceReg (afterInstr p k d payload i) reg = deviceReg d reg := by
  cases i <;> cases reg <;> simp_all [afterInstr, deviceReg, opOf, regOf]

/-- So does a transaction. -/
theorem landing_frame (s : State) (op reg payload reg') (hs : s.nextDraw.answer ≠ .silent)
    (h : op = .read ∨ reg' ≠ reg) :
    deviceReg (s.landing (encodeByte s.params op reg :: payload)) reg' = deviceReg s.arrival reg' := by
  unfold State.landing
  split
  · simp; apply afterInstr_frame; simpa using h
  · simp; apply afterInstr_frame; simpa using h
  · split
    · simp; apply afterInstr_frame; simpa using h
    · rfl
  · exact absurd ‹_› hs

/-- Everything a transaction leaves: the same state where the channel is silent,
    else `transacted` with a new block and at most one result. -/
theorem transact_frame {s t prim out} (c k w held) (hb : s.block = .busy c k w held)
    (h : State.transact s prim out = .next t) :
    (t = s ∧ s.reply prim out = .silent) ∨
    (∃ b new, (new = [] ∨ ∃ r, new = [(c, r)] ∧ b = .idle) ∧ (new = [] → b ≠ .idle) ∧
      s.reply prim out ≠ .silent ∧
      t = { s.transacted prim out with block := b, results := new ++ s.results }) := by
  have hdel : ∀ r, ∃ b new, (new = [] ∨ ∃ r, new = [(c, r)] ∧ b = Block.idle) ∧ (new = [] → b ≠ .idle) ∧
      (s.transacted prim out).deliver r = { s.transacted prim out with block := b, results := new ++ s.results } := by
    intro r; exact ⟨.idle, [(c, r)], by simp, by simp, by simp [State.deliver, hb]⟩
  have hadv : ∀ w held, ∃ b new, (new = [] ∨ ∃ r, new = [(c, r)] ∧ b = Block.idle) ∧ (new = [] → b ≠ .idle) ∧
      (s.transacted prim out).advance w held =
        { s.transacted prim out with block := b, results := new ++ s.results } := by
    intro w held; exact ⟨.busy c (k+1) w held, [], by simp, by simp, by simp [State.advance, hb]⟩
  have hb' : (s.transacted prim out).block = .busy c k w held := hb
  rcases State.transact_cases h with ⟨h1, h2⟩ | ⟨e, h1, rfl⟩ | ⟨rx, h1, rfl, rfl⟩ | ⟨rx, h1, rfl, h2, rfl⟩ |
    ⟨rx, h1, rfl, h2, h3⟩
  · exact .inl ⟨h2, h1⟩
  · right; obtain ⟨b, new, x, y, z⟩ := hdel (.transportError e); exact ⟨b, new, x, y, by simp [h1], z⟩
  · right
    rcases State.afterWrite_cases hb' with ⟨_, h⟩ | ⟨_, h⟩ <;> rw [h]
    · obtain ⟨b, new, x, y, z⟩ := hadv w held; exact ⟨b, new, x, y, by simp [h1], z⟩
    · obtain ⟨b, new, x, y, z⟩ := hdel (.ok .unit); exact ⟨b, new, x, y, by simp [h1], z⟩
  · right
    obtain ⟨b, new, x, y, z⟩ := hdel (.lengthMismatch out.length rx.length)
    exact ⟨b, new, x, y, by simp [h1], z⟩
  · right
    rcases State.afterRead_cases hb' h3 with h | h | ⟨x, h⟩ <;> rw [h]
    · obtain ⟨b, new, x, y, z⟩ :=
          hadv (some (widthOfByte (s.transacted .exchange out).params (BitVec.ofNat 8 (unBE rx.tail)))) none
      exact ⟨b, new, x, y, by simp [h1], z⟩
    · obtain ⟨b, new, x, y, z⟩ := hadv none (some (BitVec.ofNat 8 (unBE rx.tail)))
      exact ⟨b, new, x, y, by simp [h1], z⟩
    · obtain ⟨b, new, x, y, z⟩ := hdel (.ok x); exact ⟨b, new, x, y, by simp [h1], z⟩

/-- Everything an instruction leaves, for all 24 bytes. -/
theorem exec_frames {op reg s t} (h : exec (instrOf op reg) s = .next t) :
    ∃ c k w held, s.block = .busy c k w held ∧ (program c)[k]? = some (op, reg) ∧ s.current = some (op, reg) ∧
      ((admitted op reg = false ∧
          t = { s with block := .idle, results := (c, .refused (.unadmittedPair op reg)) :: s.results }) ∨
        (admitted op reg = true ∧ s.nextDraw.answer = .silent ∧ t = s) ∨
        (admitted op reg = true ∧ s.nextDraw.answer ≠ .silent ∧
          ∃ prim payload b new, (new = [] ∨ ∃ r, new = [(c, r)] ∧ b = .idle) ∧ (new = [] → b ≠ .idle) ∧
            t = { s.transacted prim (encodeByte s.params op reg :: payload) with
              block := b
              results := new ++ s.results })) := by
  obtain ⟨hc, h⟩ := exec_cases h
  obtain ⟨c, k, w, held, hb⟩ := current_busy_of hc
  refine ⟨c, k, w, held, hb, by rw [← State.current_busy hb, hc], hc, ?_⟩
  have h' : (admitted op reg = false ∧ t = s.deliver (.refused (.unadmittedPair op reg))) ∨
      (admitted op reg = true ∧ ∃ prim payload, s.transact prim (encodeByte s.params op reg :: payload) = .next t) := by
    rcases h with h | ⟨ha, rfl, n, _, h⟩ | ⟨ha, rfl, n, v, _, _, h⟩ | ⟨ha, _, h⟩
    · exact .inl h
    all_goals exact .inr ⟨ha, _, _, h⟩
  rcases h' with ⟨ha, rfl⟩ | ⟨ha, prim, payload, h⟩
  · left; exact ⟨ha, by simp [State.deliver, hb]⟩
  · rcases transact_frame c k w held hb h with ⟨h1, h2⟩ | ⟨b, new, h1, h2, h3, h4⟩
    · exact Or.inr (Or.inl ⟨ha, (silent_iff _ _ _).1 h2, h1⟩)
    · exact Or.inr (Or.inr ⟨ha, fun hh => h3 ((silent_iff _ _ _).2 hh), prim, payload, b, new, h1, h2, h4⟩)

/-- A step of a busy block is `exec` of its current pair. -/
theorem step_exec {s t : State} {c k w held} (hb : s.block = .busy c k w held) (h : step s = .next t) :
    ∃ op reg, s.current = some (op, reg) ∧ exec (instrOf op reg) s = .next t := by
  rcases step_cases h with ⟨hi, _⟩ | ⟨c', k', w', h', op, reg, hb', hc, he⟩
  · rw [hb] at hi; cases hi
  · exact ⟨op, reg, by rw [State.current_busy hb', hc], he⟩

/-- A failed transaction ends the command with its error. -/
theorem exec_failed {s t : State} {op reg} (e landed) (ha : admitted op reg = true)
    (hf : s.nextDraw.answer = .fail e landed) (h : exec (instrOf op reg) s = .next t) :
    ∃ prim payload, t = (s.transacted prim (encodeByte s.params op reg :: payload)).deliver (.transportError e) := by
  obtain ⟨hc, h⟩ := exec_cases h
  have hr : ∀ prim out, s.reply prim out = .failed e := by intro prim out; simp [State.reply, hf]
  have h' : ∃ prim payload, s.transact prim (encodeByte s.params op reg :: payload) = .next t := by
    rcases h with ⟨hn, h⟩ | ⟨ha, rfl, n, _, h⟩ | ⟨ha, rfl, n, v, _, _, h⟩ | ⟨ha, _, h⟩
    · rw [ha] at hn; cases hn
    all_goals exact ⟨_, _, h⟩
  obtain ⟨prim, payload, h⟩ := h'
  refine ⟨prim, payload, ?_⟩
  simp only [State.transact, hr] at h
  cases h; rfl

/-- What the invariant says of a busy block. -/
theorem ready_of_inv {s : State} (hi : s.Inv) {c k w held} (hb : s.block = .busy c k w held) :
    verdict s.params c = none ∧ k < (program c).length ∧ w.isSome = (latchesWidth c && k != 0) ∧
      held.isSome = (holdsByte c && k != 0) := by
  have := hi.2
  simp only [blockOk, hb, Bool.and_eq_true, beq_iff_eq, decide_eq_true_eq] at this
  exact ⟨this.1.1.1, this.1.1.2, this.1.2, this.2⟩

/-- Under the invariant the current byte is refused or issues its transaction. -/
theorem exec_reaches {s : State} (hi : s.Inv) {c k w held op reg} (hb : s.block = .busy c k w held)
    (hc : (program c)[k]? = some (op, reg)) :
    (admitted op reg = false ∧
      exec (instrOf op reg) s = .next (s.deliver (.refused (.unadmittedPair op reg)))) ∨
    (admitted op reg = true ∧ op = .read ∧
      ∃ n, exec (instrOf op reg) s = s.transact .exchange (readFrame s.params reg n)) ∨
    (admitted op reg = true ∧ op ≠ .read ∧
      ∃ payload, exec (instrOf op reg) s = s.transact .write (encodeByte s.params op reg :: payload)) := by
  obtain ⟨hv, hk, hw, hh⟩ := ready_of_inv hi hb
  have hcur : s.current = some (op, reg) := by rw [State.current_busy hb, hc]
  rw [exec_instrOf]
  cases ha : admitted op reg with
  | false => left; simp [refusePair, hcur]
  | true =>
    right
    have htb : (op = .read ∨ op = .write) → ∃ n, s.transferBytes reg = some n := by
      intro hop
      unfold State.transferBytes
      by_cases hwide : isWide reg = true
      · simp only [hwide, if_true, State.latched, hb]
        have : w.isSome = true := by
          rw [hw]
          cases c with
          | encode => simp [program] at hc
          | readReg r =>
            simp only [program, rawProgram] at hc
            split at hc <;> rename_i hx
            · obtain _ | _ | k := k <;> simp at hc
              · rw [← hc.2] at hwide; simp [isWide] at hwide
              · simpa [latchesWidth] using hx
            · obtain _ | k := k <;> simp at hc
              obtain ⟨rfl, rfl⟩ := hc
              simp [ha, hwide] at hx
          | writeReg r v =>
            simp only [program, rawProgram] at hc
            split at hc <;> rename_i hx
            · obtain _ | _ | k := k <;> simp at hc
              · rw [← hc.2] at hwide; simp [isWide] at hwide
              · simpa [latchesWidth] using hx
            · obtain _ | k := k <;> simp at hc
              obtain ⟨rfl, rfl⟩ := hc
              simp [ha, hwide] at hx
          | load r => obtain _ | k := k <;> simp [program] at hc; simp [← hc.1] at hop
          | clear r => obtain _ | k := k <;> simp [program] at hc; simp [← hc.1] at hop
          | getCounts =>
            obtain _ | _ | k := k <;> simp [program] at hc
            · rw [← hc.2] at hwide; simp [isWide] at hwide
            · simp [latchesWidth]
          | setCounts v =>
            obtain _ | _ | _ | k := k <;> simp [program] at hc
            · rw [← hc.2] at hwide; simp [isWide] at hwide
            · simp [latchesWidth]
            · simp [latchesWidth]
          | getField f =>
            obtain _ | k := k <;> simp [program] at hc
            rw [← hc.2] at hwide; cases f <;> simp [isWide, holder] at hwide
          | setField f x =>
            obtain _ | _ | k := k <;> simp [program] at hc <;>
            rw [← hc.2] at hwide <;> cases f <;> simp [isWide, holder] at hwide
        obtain ⟨w', hw'⟩ := Option.isSome_iff_exists.1 this
        exact ⟨w'.bytes, by simp [hw']⟩
      · exact ⟨1, by simp [hwide]⟩
    cases op with
    | read =>
      left
      obtain ⟨n, hn⟩ := htb (.inl rfl)
      exact ⟨rfl, rfl, n, by simp [runRead, hcur, hn]⟩
    | write =>
      right
      obtain ⟨n, hn⟩ := htb (.inr rfl)
      have : ∃ v, s.writeValue = some v := by
        unfold State.writeValue; rw [hb]
        cases c with
        | encode => simp [program] at hc
        | readReg r => simp only [program, rawProgram] at hc; split at hc <;> obtain _ | _ | k := k <;> simp at hc
        | writeReg r v => exact ⟨v, rfl⟩
        | load r => obtain _ | k := k <;> simp [program] at hc
        | clear r => obtain _ | k := k <;> simp [program] at hc
        | getCounts => obtain _ | _ | k := k <;> simp [program] at hc
        | setCounts v =>
          obtain _ | _ | _ | k := k <;> simp [program] at hc
          simp [latchesWidth] at hw
          obtain ⟨w', hw'⟩ := Option.isSome_iff_exists.1 hw
          exact ⟨encodeSigned v w', by simp [hw']⟩
        | getField f => obtain _ | k := k <;> simp [program] at hc
        | setField f x =>
          obtain _ | _ | k := k <;> simp [program] at hc
          simp [holdsByte] at hh
          obtain ⟨b, hb'⟩ := Option.isSome_iff_exists.1 hh
          simp only [verdict] at hv
          split at hv
          · cases hv
          · split at hv
            · rename_i code hcode; exact ⟨_, by simp [hb', hcode]; rfl⟩
            · cases hv
      obtain ⟨v, hv'⟩ := this
      exact ⟨rfl, by simp, be (v % 2^(8*n)) n, by simp [runWrite, hcur, hn, hv', writeFrame]⟩
    | clear => right; exact ⟨rfl, by simp, [], by simp [runControl, hcur, ctrlFrame]⟩
    | load => right; exact ⟨rfl, by simp, [], by simp [runControl, hcur, ctrlFrame]⟩

/-- How a transaction leaves the block. -/
theorem transact_forms {s t prim out} {c k w held} (hb : s.block = .busy c k w held)
    (h : State.transact s prim out = .next t) :
    t = s ∨ (∃ r, t = (s.transacted prim out).deliver r) ∨
    (prim = .write ∧ k + 1 < (program c).length ∧ t = (s.transacted prim out).advance w held) ∨
    (∃ v, prim = .exchange ∧ (s.transacted prim out).afterRead v = .next t) := by
  have hb' : (s.transacted prim out).block = .busy c k w held := hb
  rcases State.transact_cases h with ⟨h1, h2⟩ | ⟨e, h1, rfl⟩ | ⟨rx, h1, rfl, rfl⟩ | ⟨rx, h1, rfl, h2, rfl⟩ |
    ⟨rx, h1, rfl, h2, h3⟩
  · exact .inl h2
  · exact .inr (.inl ⟨_, rfl⟩)
  · rcases State.afterWrite_cases hb' with ⟨hk, h⟩ | ⟨_, h⟩ <;> rw [h]
    · exact .inr (.inr (.inl ⟨rfl, hk, rfl⟩))
    · exact .inr (.inl ⟨_, rfl⟩)
  · exact .inr (.inl ⟨_, rfl⟩)
  · exact .inr (.inr (.inr ⟨_, rfl, h3⟩))

/-- An instruction is a refusal or one transaction by its primitive. -/
theorem exec_transact {op reg s t} (h : exec (instrOf op reg) s = .next t) : s.current = some (op, reg) ∧
   ((admitted op reg = false ∧ t = s.deliver (.refused (.unadmittedPair op reg))) ∨
    (admitted op reg = true ∧ ∃ payload,
        s.transact (if op = .read then .exchange else .write) (encodeByte s.params op reg :: payload) = .next t)) := by
  obtain ⟨hc, h⟩ := exec_cases h
  refine ⟨hc, ?_⟩
  rcases h with h | ⟨ha, rfl, n, _, h⟩ | ⟨ha, rfl, n, v, _, _, h⟩ | ⟨ha, hop, h⟩
  · exact .inl h
  · exact .inr ⟨ha, _, by exact h⟩
  · exact .inr ⟨ha, _, by exact h⟩
  · exact .inr ⟨ha, [], by rcases hop with rfl | rfl <;> exact h⟩

/-- The block after a step of a busy block, under the invariant. -/
theorem step_forms {s t : State} {c k w held} (hi : s.Inv) (hb : s.block = .busy c k w held) (h : step s = .next t) :
   t = s ∨ (t.block = .idle ∧ t.params = s.params) ∨
   (t.params = s.params ∧ k + 1 < (program c).length ∧
     ((k = 0 ∧ latchesWidth c = true ∧ ∃ w', t.block = .busy c 1 (some w') none) ∨
      (k = 0 ∧ holdsByte c = true ∧ ∃ b, t.block = .busy c 1 none (some b)) ∨
      (k ≠ 0 ∧ t.block = .busy c (k+1) w held))) := by
  obtain ⟨hv, hk, hw, hh⟩ := ready_of_inv hi hb
  obtain ⟨op, reg, hc, he⟩ := step_exec hb h
  obtain ⟨_, he⟩ := exec_transact he
  rw [State.current_busy hb] at hc
  rcases he with ⟨_, rfl⟩ | ⟨ha, payload, he⟩
  · right; left; simp
  · rcases transact_forms hb he with rfl | ⟨r, rfl⟩ | ⟨hp, hk', rfl⟩ | ⟨v, hp, har⟩
    · simp
    · simp
    · right; right
      refine ⟨rfl, hk', .inr (.inr ⟨?_, State.advance_block _ _ hb⟩)⟩
      rintro rfl
      have hop : op ≠ .read := by rintro rfl; simp at hp
      cases c <;> simp_all [program, rawProgram] <;> split at hc <;> simp_all
    · have hop : op = .read := by by_contra hne; simp [hne] at hp
      subst hop
      unfold State.afterRead at har
      rw [State.transacted_block, hb] at har
      have hlat : ∀ s' : State, s'.block = .busy c k w held → ∀ v,
          (s'.latch v).block = .busy c (k+1) (some (widthOfByte s'.params (BitVec.ofNat 8 v))) none :=
          fun s' h v => State.latch_block v h
      cases c with
      | encode => simp [program] at hc
      | load => obtain _ | k := k <;> simp [program] at hc
      | clear => obtain _ | k := k <;> simp [program] at hc
      | readReg r =>
        simp only at har; split at har <;> rename_i hx <;> cases har
        · simp at hx
          obtain ⟨hwide, rfl⟩ := hx
          simp only [program, rawProgram, hwide] at hc ⊢
          right; right
          cases har : admitted .read r
          · simp [har] at hc; obtain rfl := hc.symm; simp [har] at ha
          · exact ⟨rfl, by simp, .inl ⟨trivial, by simp [latchesWidth, har, hwide], _, hlat _ hb _⟩⟩
        · right; left; simp
      | writeReg r v' =>
        cases har
        simp only [program, rawProgram] at hc ⊢
        split at hc <;> rename_i hx
        · obtain _ | _ | k := k <;> simp at hc
          right; right
          exact ⟨rfl, by simp [hx], .inl ⟨rfl, by simpa [latchesWidth] using hx, _, hlat _ hb _⟩⟩
        · obtain _ | k := k <;> simp at hc
      | getCounts =>
        simp only at har; split at har
        · cases har; right; right; subst k; exact ⟨rfl, by simp [program], .inl ⟨rfl, rfl, _, hlat _ hb _⟩⟩
        · split at har <;> cases har; right; left; simp
      | setCounts v' =>
        cases har
        obtain _ | _ | _ | k := k <;> simp [program] at hc
        right; right; exact ⟨rfl, by simp [program], .inl ⟨rfl, rfl, _, hlat _ hb _⟩⟩
      | getField => cases har; right; left; simp
      | setField =>
        cases har
        obtain _ | _ | k := k <;> simp [program] at hc
        right; right; exact ⟨rfl, by simp [program], .inr (.inl ⟨rfl, rfl, _, State.advance_block _ _ hb⟩)⟩

/-- A step from the meaning of its byte. -/
theorem step_after {s t : State} {i : Instr} {c k w held} (h : exec i s = .next t)
    (hb : s.block = .busy c k w held) (hc : (program c)[k]? = some (opOf i, regOf i)) : step s = .next t := by
  rw [step_busy hb hc, ← exec_eq, h]

/-- The first of several steps. -/
theorem steps_succ {n s t} (h : step s = .next t) : steps (n+1) s = steps n t := by simp [steps, h]

/-- Steps in a row. -/
theorem steps_add : ∀ (m n : Nat) (s t : State), steps m s = .next t → steps (m + n) s = steps n t := by
  intro m
  induction m with
  | zero => intro n s t h; simp [steps] at h; subst h; simp
  | succ m ih =>
    intro n s t h
    rw [show m + 1 + n = (m + n) + 1 by omega]
    simp only [steps] at h ⊢
    split at h
    · exact ih n _ _ h
    · cases h
    · cases h

/-- CHANNEL_RETURNS at the coming transaction. -/
theorem returns_draw {s : State} (h : s.ChannelReturns) : s.nextDraw.answer ≠ .silent := by
  unfold State.nextDraw
  split
  · rename_i d ds he; exact h.1 d (by simp [he])
  · split
    · rename_i hw; exact h.2 hw _
    · simp

/-- Under CHANNEL_RETURNS an instruction delivers a result or goes on. -/
theorem exec_nosilent {s t : State} {op reg} (h : exec (instrOf op reg) s = .next t) (hr : s.ChannelReturns) :
    t.ChannelReturns ∧ t.bus.length ≤ s.bus.length + 1 ∧
   ((t.block = .idle ∧ ∃ c k w held r, s.block = .busy c k w held ∧ t.results = (c,r) :: s.results) ∨
       (t.block ≠ .idle ∧ t ≠ s ∧ t.results = s.results)) := by
  obtain ⟨c, k, w, held, hb, hp, hc, h⟩ := exec_frames h
  rcases h with ⟨ha, rfl⟩ | ⟨ha, hs, rfl⟩ | ⟨ha, hs, prim, payload, b, new, h1, h2, rfl⟩
  · exact ⟨hr, by simp, .inl ⟨rfl, c, k, w, held, _, hb, rfl⟩⟩
  · exact absurd hs (returns_draw hr)
  · refine ⟨⟨fun d hd => hr.1 d (List.mem_of_mem_tail hd), hr.2⟩, by simp, ?_⟩
    rcases h1 with rfl | ⟨r, rfl, rfl⟩
    · refine .inr ⟨h2 rfl, ?_, rfl⟩
      intro he
      have := congrArg State.drawn he
      simp at this
    · exact .inl ⟨rfl, c, k, w, held, r, hb, rfl⟩

/-- No command has more than three transactions (70 R280). -/
theorem program_length_le (c) : (program c).length ≤ 3 := by cases c <;> simp [program, rawProgram] <;> split <;> simp

/-- The reference device answers the coming transaction. -/
theorem calm_draw {s : State} (h : s.Calm) : ∃ e, s.nextDraw = { change := .quiet, answer := .device e } := by
  unfold State.nextDraw
  split
  · rename_i d ds he
    have := h.2 d (by simp [he])
    obtain ⟨ch, an⟩ := d
    cases ch <;> cases an <;> simp [drawCalm] at this
    exact ⟨_, rfl⟩
  · rw [h.1]; exact ⟨_, rfl⟩

/-- It has changed nothing on its own. -/
theorem calm_arrival {s : State} (h : s.Calm) : s.arrival = s.dev := by
  obtain ⟨e, he⟩ := calm_draw h; simp [State.arrival, he, applyChange]

/-- It completes a Write. -/
theorem calm_write {s : State} (h : s.Calm) (out) : s.reply .write out = .returned [] := by
  obtain ⟨e, he⟩ := calm_draw h; simp [State.reply, he]

/-- It answers an Exchange. -/
theorem calm_read {s : State} (h : s.Calm) (reg n) :
    ∃ e, s.reply .exchange (encodeByte s.params .read reg :: zeros n) =
      .returned (e :: responseTo s.params s.drawn s.dev (zeros n) (instrOf .read reg)) := by
  obtain ⟨e, he⟩ := calm_draw h; exact ⟨e, by simp [State.reply, he, calm_arrival h]⟩

end Sys2Proof.Machine
end

