-- ==== Sys2Proof/Tests/Slice0.lean ====
section
/-! SUPPORT. Tests: expected results are the spec's own examples (95_test_vectors E1 to E14 and section 2, the Example lines of the
rules) or hand calculation from its rules. `witness_X` meets every hypothesis of `Obligations.X`, clause by clause. -/

namespace Sys2Proof.Tests

open Sys2Proof.Machine Sys2Proof.Claims

/-! ### Helpers -/

/-- A device at width 16. -/
def dev : Device := { mdr0 := 0x2F, mdr1 := 0x02, dtr := 0x1234, cntr := 0x8000, otr := 0x0100, str := 0x81 }

/-- A block in the form `b`, whose channel answers in this order, with the reference device behind it. -/
def inForm (b : Block) (answers : List Answer) : State :=
  { State.reset with
    block := b
    dev := dev
    world := .reference
    env := answers.map fun a => { change := .quiet, answer := a } }

/-- An Idle block with commands waiting. -/
def waiting (requests : List Command) (answers : List Answer) : State :=
  { inForm .idle answers with requests := requests }

/-- `STATUS_CODE = 0x30`. -/
def c30 : Params := { Params.standard with statusCode := .c30 }

def next? (o : Host.Outcome State Fault Refusal) : Option State :=
  match o with
  | .next t => some t
  | .fault _ => none
  | .refused _ => none

def result (o : Host.Outcome State Fault Refusal) : Option (List (Command × Result)) := (next? o).map State.results
def device (o : Host.Outcome State Fault Refusal) : Option Device := (next? o).map State.dev
def blockOf (o : Host.Outcome State Fault Refusal) : Option Block := (next? o).map State.block
def sent (o : Host.Outcome State Fault Refusal) : Option (List (List Byte)) :=
  (next? o).map fun t => t.bus.map Transaction.out

/-! ### Well-formedness: one ill-formed term for each check (every instruction is well-formed: it has no operand) -/

theorem test_legal_standard : Params.standard.legal = true ∧ c30.legal = true := by decide

theorem test_illegal_width_map :
    Params.legal { Params.standard with widthOf := { WidthOf.standard with c00 := .w8 } } = false := by decide

theorem test_illegal_field_outside_byte :
    Params.legal { Params.standard with layout := { Layout.standard with flagSources := 5 } } = false := by decide

theorem test_illegal_overlap :
    Params.legal { Params.standard with layout := { Layout.standard with enabled := 1 } } = false := by decide

theorem test_illegal_value_bits : Params.legal { Params.standard with valueBits := 31 } = false := by decide

theorem test_frame_ill_formed :
    Frame.wellFormed .w8 { instr := .rdDtr, payload := [0x00] } = false ∧
    Frame.wellFormed .w16 { instr := .wrDtr, payload := [0x01] } = false ∧
    Frame.wellFormed .w8 { instr := .rdMdr0, payload := [0x01] } = false ∧
    Frame.wellFormed .w16 { instr := .wrDtr, payload := [0xFF, 0xFE] } = true := by decide

/-! ### Decoding: the words of 30_encoding R88, R89 and 95_test_vectors 2.1 -/

theorem test_decode_clear :
    decodeTableWord 8 0b00001000 = some .clrMdr0 ∧ decodeTableWord 8 0b00010000 = some .clrMdr1 ∧
    decodeTableWord 8 0b00011000 = some .clrDtr ∧ decodeTableWord 8 0b00100000 = some .clrCntr ∧
    decodeTableWord 8 0b00101000 = some .clrOtr ∧ decodeTableWord 8 0b00111000 = some .clrStr := by decide

theorem test_decode_read :
    decodeTableWord 8 0b01001000 = some .rdMdr0 ∧ decodeTableWord 8 0b01010000 = some .rdMdr1 ∧
    decodeTableWord 8 0b01011000 = some .rdDtr ∧ decodeTableWord 8 0b01100000 = some .rdCntr ∧
    decodeTableWord 8 0b01101000 = some .rdOtr ∧ decodeTableWord 8 0b01111000 = some .rdStr := by decide

theorem test_decode_write :
    decodeTableWord 8 0b10001000 = some .wrMdr0 ∧ decodeTableWord 8 0b10010000 = some .wrMdr1 ∧
    decodeTableWord 8 0b10011000 = some .wrDtr ∧ decodeTableWord 8 0b10100000 = some .wrCntr ∧
    decodeTableWord 8 0b10101000 = some .wrOtr ∧ decodeTableWord 8 0b10111000 = some .wrStr := by decide

theorem test_decode_load :
    decodeTableWord 8 0b11001000 = some .loadMdr0 ∧ decodeTableWord 8 0b11010000 = some .loadMdr1 ∧
    decodeTableWord 8 0b11011000 = some .loadDtr ∧ decodeTableWord 8 0b11100000 = some .loadCntr ∧
    decodeTableWord 8 0b11101000 = some .loadOtr ∧ decodeTableWord 8 0b11111000 = some .loadStr := by decide

theorem test_decode_status_30 :
    decodeByte c30 0x30 = .ok .clrStr ∧ decodeByte c30 0x70 = .ok .rdStr ∧ decodeByte c30 0xB0 = .ok .wrStr ∧
    decodeByte c30 0xF0 = .ok .loadStr ∧ decodeByte c30 0x38 = .error (.selectUnused 0x38) ∧
    decodeByte .standard 0x30 = .error (.selectUnused 0x30) := by decide

/-- 30_encoding R90, the historical Status value among them. -/
theorem test_decode_reserved :
    decodeTableWord 8 0x39 = none ∧ decodeTableWord 8 0x00 = none ∧ decodeTableWord 8 0xC0 = none ∧
    decodeTableWord 8 0x70 = none ∧ decode .standard [] = .error .noByte := by decide

/-- 95_test_vectors 2.1, the row of Write. -/
theorem test_encode_write_row :
    [Reg.mdr0, .mdr1, .dtr, .cntr, .otr, .str].map (encodeByte .standard .write) =
      [0x88, 0x90, 0x98, 0xA0, 0xA8, 0xB8] := by decide

theorem test_split_stream :
    splitFrames .standard .w16 3 [0x50, 0x00, 0x98, 0xFF, 0xFE, 0xE0] =
      some [{ instr := .rdMdr1, payload := [0x00] }, { instr := .wrDtr, payload := [0xFF, 0xFE] },
        { instr := .loadCntr, payload := [] }] := by decide

/-! ### The codec: E1 to E4 and sections 2.2 to 2.4 -/

theorem test_decode_signed :
    decodeSigned 0xFF .w8 = -1 ∧ decodeSigned 0x7F .w8 = 127 ∧ decodeSigned 0x80 .w8 = -128 ∧
    decodeSigned 0x8000 .w16 = -32768 ∧ decodeSigned 0x00008000 .w32 = 32768 ∧ decodeSigned 0xFF .w16 = 255 ∧
    decodeSigned 0xFFFFFE .w24 = -2 ∧ decodeSigned 0x80000000 .w32 = -2147483648 := by decide

theorem test_encode_signed :
    encodeSigned (-1) .w8 = 0xFF ∧ encodeSigned 300 .w8 = 0x2C ∧ encodeSigned (-129) .w8 = 0x7F ∧
    encodeSigned (-2) .w16 = 0xFFFE ∧ encodeSigned (-8388608) .w24 = 0x800000 ∧
    be (encodeSigned 305419896 .w32) 4 = [0x12, 0x34, 0x56, 0x78] := by decide

theorem test_width_of_byte :
    [0x00, 0x01, 0x02, 0x03, 0xF4, 0xFE, (0x07 : Byte)].map (widthOfByte .standard) =
      [.w32, .w24, .w16, .w8, .w32, .w16, .w8] := by decide

/-! ### Fields: section 2.7 -/

theorem test_merge :
    mergeField .standard .quadrature 3 0xB4 = 0xB7 ∧ mergeField .standard .countMode 1 0xFF = 0xF7 ∧
    mergeField .standard .indexMode 2 0x0F = 0x2F ∧ mergeField .standard .indexSync 0 0xFF = 0xBF ∧
    mergeField .standard .filterDiv 0 0xFF = 0x7F ∧ mergeField .standard .bits 3 0xF4 = 0xF7 ∧
    mergeField .standard .enabled 0 0xFF = 0xFB ∧ mergeField .standard .flagSources 10 0x03 = 0xA3 := by decide

theorem test_field_values :
    [0x00, 0x01, 0x02, 0x03, 0xFC, (0xFF : Byte)].map (fieldValue .standard .quadrature) =
      [.int 0, .int 1, .int 2, .int 4, .int 0, .int 4] ∧
    fieldValue .standard .enabled 0x04 = .bool false ∧ fieldValue .standard .enabled 0xFB = .bool true ∧
    fieldValue .standard .bits 0x01 = .int 24 ∧ fieldValue .standard .flagSources 0xA3 = .int 10 ∧
    fieldValue .standard .indexMode 0x30 = .option .loadOtr ∧ fieldValue .standard .filterDiv 0x80 = .int 2 := by
  decide

/-- 10_state R30 and E11: options and quadrature values that a swap would move. -/
theorem test_field_codes :
    codeOf .standard .countMode (.option .freeRun) = some 0 ∧
    codeOf .standard .countMode (.option .singleCycle) = some 1 ∧
    codeOf .standard .quadrature (.int 1) = some 1 ∧ codeOf .standard .quadrature (.int 2) = some 2 ∧
    codeOf .standard .quadrature (.int 3) = none ∧ codeOf .standard .flagSources (.int 16) = none := by decide

theorem test_status_view :
    statusView .standard 0x81 =
      { sign := true, direction := false, powerLoss := false, countEnableEcho := false, indexLatch := false,
        compareLatch := false, borrowLatch := false, carryLatch := true } := by decide

/-! ### Each instruction: one step -/

theorem test_clrMdr0 :
    device (step (inForm (.busy (.clear .mdr0) 0 none none) [.device 0])) = some { dev with mdr0 := 0x00 } := by decide

theorem test_clrMdr1 :
    device (step (inForm (.busy (.clear .mdr1) 0 none none) [.device 0])) = some { dev with mdr1 := 0x00 } := by decide

theorem test_clrCntr :
    device (step (inForm (.busy (.clear .cntr) 0 none none) [.device 0])) = some { dev with cntr := 0 } := by decide

theorem test_clrStr :
    device (step (inForm (.busy (.clear .str) 0 none none) [.device 0])) = some { dev with str := 0 } := by decide

theorem test_clrStr_30 :
    sent (step { inForm (.busy (.clear .str) 0 none none) [.device 0] with params := c30 }) = some [[0x30]] := by decide

theorem test_rdMdr0 :
    result (step (inForm (.busy (.readReg .mdr0) 0 none none) [.respond [0xAA, 0x2F]])) =
      some [(.readReg .mdr0, .ok (.nat 0x2F))] := by decide

/-- 41_codec R141: RD MDR1 as the width query. -/
theorem test_rdMdr1_latches :
    blockOf (step (inForm (.busy .getCounts 0 none none) [.respond [0x00, 0x02]])) =
      some (.busy .getCounts 1 (some .w16) none) := by decide

theorem test_rdMdr1 :
    result (step (inForm (.busy (.readReg .mdr1) 0 none none) [.respond [0x00, 0x02]])) =
      some [(.readReg .mdr1, .ok (.nat 2))] := by decide

/-- The Example line of 40_encoder R117. -/
theorem test_rdCntr :
    result (step (inForm (.busy (.readReg .cntr) 1 (some .w24) none) [.respond [0x00, 0xFF, 0xFF, 0xFE]])) =
      some [(.readReg .cntr, .ok (.nat 0xFFFFFE))] := by decide

/-- The Example line of 41_codec R152, and its short-response vector. -/
theorem test_rdCntr_counts :
    result (step (inForm (.busy .getCounts 1 (some .w16) none) [.device 0x5A])) =
      some [(.getCounts, .ok (.int (-32768)))] ∧
    result (step (inForm (.busy .getCounts 1 (some .w8) none) [.respond [0x5A]])) =
      some [(.getCounts, .lengthMismatch 2 1)] := by decide

theorem test_rdOtr :
    result (step (inForm (.busy (.readReg .otr) 1 (some .w32) none) [.respond [0x00, 0x00, 0x00, 0x00, 0x05]])) =
      some [(.readReg .otr, .ok (.nat 5))] := by decide

theorem test_rdStr :
    result (step (inForm (.busy (.readReg .str) 0 none none) [.device 0])) =
      some [(.readReg .str, .ok (.nat 0x81))] := by decide

theorem test_rdStr_field :
    result (step (inForm (.busy (.getField .direction) 0 none none) [.respond [0x00, 0x7E]])) =
      some [(.getField .direction, .ok (.logical (.bool true)))] := by decide

/-- 40_encoder R120's corner case. -/
theorem test_wrMdr0 :
    sent (step (inForm (.busy (.writeReg .mdr0 0x1FF) 0 none none) [.device 0])) = some [[0x88, 0xFF]] := by decide

/-- The Example line of 42_mode_fields R183. -/
theorem test_wrMdr0_merge :
    sent (step (inForm (.busy (.setField .quadrature (.int 4)) 1 none (some 0xB4)) [.device 0])) = some [[0x88, 0xB7]] := by
  decide

theorem test_wrMdr1 :
    device (step (inForm (.busy (.setField .bits (.int 16)) 1 none (some 0x08)) [.device 0])) =
      some { dev with mdr1 := 0x0A } := by decide

/-- 95_test_vectors 2.5. -/
theorem test_wrDtr :
    sent (step (inForm (.busy (.writeReg .dtr 0x12345678) 1 (some .w16) none) [.device 0])) = some [[0x98, 0x56, 0x78]] ∧
    device (step (inForm (.busy (.writeReg .dtr 0x12345678) 1 (some .w16) none) [.device 0])) =
      some { dev with dtr := 0x5678 } := by decide

/-- The Example line of 41_codec R153. -/
theorem test_wrDtr_counts :
    sent (step (inForm (.busy (.setCounts (-2)) 1 (some .w16) none) [.device 0])) = some [[0x98, 0xFF, 0xFE]] ∧
    blockOf (step (inForm (.busy (.setCounts (-2)) 1 (some .w16) none) [.device 0])) =
      some (.busy (.setCounts (-2)) 2 (some .w16) none) := by decide

theorem test_loadCntr :
    device (step (inForm (.busy (.load .cntr) 0 none none) [.device 0])) = some { dev with cntr := 0x1234 } := by decide

/-- 95_test_vectors 2.6: LOAD CNTR fails and did not land. -/
theorem test_loadCntr_fails :
    result (step (inForm (.busy (.setCounts 5) 2 (some .w8) none) [.fail 7 false])) =
      some [(.setCounts 5, .transportError 7)] ∧
    device (step (inForm (.busy (.setCounts 5) 2 (some .w8) none) [.fail 7 false])) = some dev := by decide

theorem test_loadOtr :
    device (step (inForm (.busy (.load .otr) 0 none none) [.device 0])) = some { dev with otr := 0x8000 } := by decide

/-- 60_exceptions R234, one byte of each operation, from the command's acceptance. -/
theorem test_unadmitted :
    result (steps 2 (waiting [.readReg .dtr] [])) = some [(.readReg .dtr, .refused (.unadmittedPair .read .dtr))] ∧
    result (steps 2 (waiting [.writeReg .str 0] [])) =
      some [(.writeReg .str 0, .refused (.unadmittedPair .write .str))] ∧
    result (steps 2 (waiting [.load .mdr0] [])) = some [(.load .mdr0, .refused (.unadmittedPair .load .mdr0))] ∧
    result (steps 2 (waiting [.clear .otr] [])) = some [(.clear .otr, .refused (.unadmittedPair .clear .otr))] := by
  decide

/-- Log entry 7: both causes at once. -/
theorem test_unadmitted_before_too_wide :
    result (steps 2 (waiting [.writeReg .cntr (2 ^ 32)] [])) =
      some [(.writeReg .cntr (2 ^ 32), .refused (.unadmittedPair .write .cntr))] := by decide

theorem test_value_too_wide :
    result (step (waiting [.writeReg .mdr0 (2 ^ 32)] [])) = some [(.writeReg .mdr0 (2 ^ 32), .refused .valueTooWide)] ∧
    result (step (waiting [.writeReg .mdr0 (2 ^ 32 - 1)] [])) = some [] := by decide

/-- E5, E6 and 60_exceptions R235. -/
theorem test_set_field_checks :
    result (step (waiting [.setField .bits (.int 10)] [])) =
      some [(.setField .bits (.int 10), .invalidArgument .bits [.int 8, .int 16, .int 24, .int 32])] ∧
    result (step (waiting [.setField .quadrature (.int 3)] [])) =
      some [(.setField .quadrature (.int 3), .invalidArgument .quadrature [.int 0, .int 1, .int 2, .int 4])] ∧
    result (step (waiting [.setField .carryLatch (.int 7)] [])) =
      some [(.setField .carryLatch (.int 7), .refused (.readOnlyField .carryLatch))] := by decide

/-- E9. -/
theorem test_encode_command :
    result (step (waiting [.encode .read .cntr] [])) = some [(.encode .read .cntr, .ok (.byte 0x60))] := by decide

/-- 93 I9: a silent channel. -/
theorem test_silent :
    blockOf (step (inForm (.busy .getCounts 0 none none) [.silent])) = some (.busy .getCounts 0 none none) := by decide

/-- Every word of the table, placed after reset, is fetched and its step delivers a result. -/
theorem test_placed :
    [0x08, 0x10, 0x18, 0x20, 0x28, 0x38, 0x48, 0x50, 0x58, 0x60, 0x68, 0x78, 0x88, 0x90, 0x98, 0xA0, 0xA8, 0xB8, 0xC8,
      0xD0, 0xD8, 0xE0, 0xE8, 0xF8].all (fun w =>
      (State.reset.withFetchWord 8 w).fetch = decodeTableWord 8 w &&
      ((result (step (State.reset.withFetchWord 8 w))).map List.length) = some 1) = true := by decide

/-! ### Witnesses -/

theorem witness_EncodingConstants : Params.standard.statusCode = .c38 ∧ c30.statusCode = .c30 := by decide

theorem witness_EncodeIsInjective : encodeByte c30 .read .str = encodeByte c30 .read .str := rfl

theorem witness_ReservedBytesRejected :
    ((0x39 : Byte).extractLsb' 0 3 ≠ 0) ∧
    ((0xC0 : Byte).extractLsb' 0 3 = 0 ∧ (0xC0 : Byte).extractLsb' 3 3 = 0) ∧
    ((0x30 : Byte).extractLsb' 0 3 = 0 ∧ (0x30 : Byte).extractLsb' 3 3 = 0b110 ∧ Params.standard.statusCode = .c38) ∧
    ((0x38 : Byte).extractLsb' 0 3 = 0 ∧ (0x38 : Byte).extractLsb' 3 3 = 0b111 ∧ c30.statusCode = .c30) ∧
    (∃ e, decodeByte .standard 0x39 = .error e) := by
  refine ⟨by decide, by decide, by decide, by decide, _, rfl⟩

theorem witness_FourteenAdmittedBytes : c30.statusCode = .c30 := rfl

theorem witness_FrameStreamSplits :
    ∀ f ∈ [({ instr := .rdMdr1, payload := [0x00] } : Frame), { instr := .wrDtr, payload := [0xFF, 0xFE] },
      { instr := .loadCntr, payload := [] }], f.wellFormed .w16 = true := by decide

theorem witness_EncodeCommandAnswers :
    (waiting [.encode .load .str] []).block = .idle ∧
    (waiting [.encode .load .str] []).requests = .encode .load .str :: [] := ⟨rfl, rfl⟩

/-- A block in the form `b` whose channel completes a Write, and one whose channel fails, landed or not. -/
theorem witness_write_rules (b : Block) (out : List Byte) :
    (inForm b [.device 0]).block = b ∧ (inForm b [.device 0]).reply .write out = .returned [] ∧
    (inForm b [.fail 7 true]).nextDraw.answer = .fail 7 true ∧ (inForm b [.fail 7 false]).nextDraw.answer = .fail 7 false :=
  ⟨rfl, rfl, rfl, rfl⟩

/-- A block in the form `b` whose channel answers an Exchange of two bytes with two, fails, or answers with one. -/
theorem witness_read_rules (b : Block) (x y : Byte) :
    (inForm b [.respond [0xAA, 0x2F]]).block = b ∧
    (inForm b [.respond [0xAA, 0x2F]]).reply .exchange [x, y] = .returned (0xAA :: [0x2F]) ∧
    (inForm b [.fail 7 false]).nextDraw.answer = .fail 7 false ∧
    (inForm b [.respond [0xAA]]).reply .exchange [x, y] = .returned [0xAA] := ⟨rfl, rfl, rfl, rfl⟩

theorem witness_ClearFramesComplete : ∃ s t u v : State,
    s.block = .busy (.clear .mdr0) 0 none none ∧ s.reply .write [0x08] = .returned [] ∧
    t.block = .busy (.clear .mdr1) 0 none none ∧ t.reply .write [0x10] = .returned [] ∧
    u.block = .busy (.clear .cntr) 0 none none ∧ u.reply .write [0x20] = .returned [] ∧
    v.block = .busy (.clear .str) 0 none none ∧ v.nextDraw.answer = .fail 7 true :=
  ⟨inForm _ [.device 0], inForm _ [.device 0], inForm _ [.device 0], inForm _ [.fail 7 true], rfl, rfl, rfl, rfl, rfl, rfl, rfl, rfl⟩

theorem witness_LoadFramesComplete : ∃ s t u : State,
    s.block = .busy (.load .cntr) 0 none none ∧ s.reply .write [0xE0] = .returned [] ∧
    t.block = .busy (.setCounts (-2)) 2 (some .w16) none ∧ t.reply .write [0xE0] = .returned [] ∧
    u.block = .busy (.load .otr) 0 none none ∧ u.nextDraw.answer = .fail 7 false :=
  ⟨inForm _ [.device 0], inForm _ [.device 0], inForm _ [.fail 7 false], rfl, rfl, rfl, rfl, rfl, rfl⟩

theorem witness_NarrowReadsComplete : ∃ s t u : State,
    s.block = .busy (.readReg .mdr0) 0 none none ∧ s.reply .exchange [0x48, 0x00] = .returned (0xAA :: [0x2F]) ∧
    t.block = .busy (.readReg .mdr1) 0 none none ∧ t.nextDraw.answer = .fail 7 false ∧
    u.block = .busy (.readReg .str) 0 none none ∧ u.reply .exchange [0x78, 0x00] = .returned [0xAA] :=
  ⟨inForm _ [.respond [0xAA, 0x2F]], inForm _ [.fail 7 false], inForm _ [.respond [0xAA]], rfl, rfl, rfl, rfl, rfl, rfl⟩

theorem witness_WideReadsComplete : ∃ s t : State,
    s.block = .busy (.readReg .cntr) 1 (some .w8) none ∧ s.reply .exchange [0x60, 0x00] = .returned (0x00 :: [0x80]) ∧
    t.block = .busy (.readReg .otr) 1 (some .w32) none ∧
    t.reply .exchange [0x68, 0x00, 0x00, 0x00, 0x00] = .returned (0x00 :: [0x00, 0x00, 0x01, 0x00]) ∧
    [(0x80 : Byte)].length = Width.w8.bits / 8 :=
  ⟨inForm _ [.respond [0x00, 0x80]], inForm _ [.respond [0x00, 0x00, 0x00, 0x01, 0x00]], rfl, rfl, rfl, rfl, rfl⟩

theorem witness_GetCountsDecodes : ∃ s : State,
    s.block = .busy .getCounts 1 (some .w16) none ∧
    s.reply .exchange [0x60, 0x00, 0x00] = .returned (0x00 :: [0x80, 0x00]) :=
  ⟨inForm _ [.respond [0x00, 0x80, 0x00]], rfl, rfl⟩

theorem witness_WidthQueryLatches : ∃ s : State,
    latchesWidth (.writeReg .dtr 5) = true ∧ s.block = .busy (.writeReg .dtr 5) 0 none none ∧
    s.reply .exchange [0x50, 0x00] = .returned (0xFF :: [0x03]) :=
  ⟨inForm _ [.respond [0xFF, 0x03]], rfl, rfl, rfl⟩

theorem witness_GetFieldExtracts : ∃ s : State,
    s.block = .busy (.getField .carryLatch) 0 none none ∧ s.reply .exchange [0x78, 0x00] = .returned (0x00 :: [0x81]) :=
  ⟨inForm _ [.respond [0x00, 0x81]], rfl, rfl⟩

theorem witness_SetFieldHolds : ∃ s : State,
    s.block = .busy (.setField .enabled (.bool false)) 0 none none ∧
    s.reply .exchange [0x50, 0x00] = .returned (0x00 :: [0x00]) :=
  ⟨inForm _ [.respond [0x00, 0x00]], rfl, rfl⟩

theorem witness_SetFieldWritesMerged : ∃ s : State,
    s.block = .busy (.setField .flagSources (.int 15)) 1 none (some 0x00) ∧ readOnly .flagSources = false ∧
    codeOf s.params .flagSources (.int 15) = some 15 ∧ s.reply .write [0x90, 0xF0] = .returned [] :=
  ⟨inForm _ [.device 0], rfl, rfl, rfl, rfl⟩

theorem witness_NarrowWritesComplete : ∃ s t : State,
    s.block = .busy (.writeReg .mdr0 0x1FF) 0 none none ∧ s.reply .write [0x88, 0xFF] = .returned [] ∧
    t.block = .busy (.writeReg .mdr1 0) 0 none none ∧ t.nextDraw.answer = .fail 7 true :=
  ⟨inForm _ [.device 0], inForm _ [.fail 7 true], rfl, rfl, rfl, rfl⟩

theorem witness_DtrWritesComplete : ∃ s t : State,
    s.block = .busy (.writeReg .dtr 0x10000) 1 (some .w16) none ∧ s.reply .write [0x98, 0x00, 0x00] = .returned [] ∧
    queriedWidth s.params s.arrival.mdr1 = .w16 ∧
    t.block = .busy (.setCounts (-129)) 1 (some .w8) none ∧ t.reply .write [0x98, 0x7F] = .returned [] ∧
    queriedWidth t.params t.arrival.mdr1 ≠ .w8 :=
  ⟨inForm _ [.device 0], inForm _ [.device 0], rfl, rfl, rfl, rfl, rfl, by decide⟩

theorem witness_UnadmittedBytesRefuse : ∃ s t : State,
    Instr.rdDtr ∈ notAdmitted ∧ s.block = .busy (.readReg .dtr) 0 none none ∧
    s.current = some (opOf .rdDtr, regOf .rdDtr) ∧
    Instr.loadStr ∈ notAdmitted ∧ t.block = .idle ∧ t.requests = .encode (opOf .loadStr) (regOf .loadStr) :: [] :=
  ⟨inForm _ [], waiting [.encode .load .str] [], by decide, rfl, rfl, by decide, rfl, rfl⟩

theorem witness_InstructionFrame : ∃ s t : State, exec .wrDtr s = .next t :=
  ⟨inForm (.busy (.writeReg .dtr 5) 1 (some .w16) none) [.device 0], _, rfl⟩

theorem witness_OutOfTurnByteFaults : ∃ s : State, s.current ≠ some (opOf .loadCntr, regOf .loadCntr) :=
  ⟨inForm (.busy (.setCounts 5) 0 none none) [], by decide⟩

theorem witness_StepRunsDecoded : ∃ s : State, s.currentByte = some 0x98 ∧ decodeByte s.params 0x98 = .ok .wrDtr :=
  ⟨inForm (.busy (.setCounts 5) 1 (some .w8) none) [], rfl, by decide⟩

theorem witness_IdleAccepts :
    (waiting [.getCounts] []).block = .idle ∧ (waiting [.getCounts] []).requests = .getCounts :: [] ∧
    verdict (waiting [.getCounts] []).params .getCounts = none ∧
    verdict .standard (.setField .sign (.bool true)) = some (.refused (.readOnlyField .sign)) ∧
    (waiting [.writeReg .cntr (2 ^ 32)] []).requests = .writeReg .cntr (2 ^ 32) :: [] ∧
    rawPair (.writeReg .cntr (2 ^ 32)) = some (.write, .cntr) ∧ admitted .write .cntr = false :=
  ⟨rfl, rfl, rfl, rfl, rfl, rfl, rfl⟩

theorem witness_SetFieldChecksFirst :
    (waiting [.setField .bits (.int 12)] []).block = .idle ∧ holder .sign = .str ∧ holder .bits ≠ .str ∧
    Logical.int 12 ∉ domain .standard .bits ∧ Logical.int 8 ∈ domain .standard .bits ∧
    (waiting [.getField .sign] []).requests = .getField .sign :: [] := by decide

/-- `WRITE_REG(CNTR, 2^VALUE_BITS)` meets the first two causes (log entry 7); on an admitted register the second stands alone. -/
theorem witness_RefusedCommandsChangeNothing :
    (waiting [.writeReg .cntr (2 ^ 32)] []).block = .idle ∧
    (waiting [.writeReg .cntr (2 ^ 32)] []).requests = .writeReg .cntr (2 ^ 32) :: [] ∧
    rawPair (.writeReg .cntr (2 ^ 32)) = some (.write, .cntr) ∧ admitted .write .cntr = false ∧
    rawPair (.clear .dtr) = some (.clear, .dtr) ∧ admitted .clear .dtr = false ∧
    admitted .write .dtr = true ∧ 2 ^ State.reset.params.valueBits ≤ 2 ^ 32 ∧
    (waiting [.setField .borrowLatch (.bool true)] []).requests = .setField .borrowLatch (.bool true) :: [] ∧
    readOnly .borrowLatch = true := by decide

theorem witness_GetCountsRuns : ∃ s : State,
    s.block = .idle ∧ s.requests = .getCounts :: [] ∧
    s.env = [{ change := .quiet, answer := .respond [0x00, 0x03] }, { change := .quiet, answer := .respond [0x5A, 0x80] }] ∧
    [(0x80 : Byte)].length = (queriedWidth s.params 0x03).bits / 8 :=
  ⟨waiting [.getCounts] [.respond [0x00, 0x03], .respond [0x5A, 0x80]], rfl, rfl, rfl, by decide⟩

theorem witness_SetCountsRuns : ∃ s : State,
    s.block = .idle ∧ s.requests = .setCounts (-32769) :: [] ∧
    s.env = [{ change := .quiet, answer := .respond [0x00, 0x02] }, { change := .quiet, answer := .device 1 },
      { change := .quiet, answer := .device 2 }] ∧
    queriedWidth s.params s.dev.mdr1 = queriedWidth s.params 0x02 :=
  ⟨waiting [.setCounts (-32769)] [.respond [0x00, 0x02], .device 1, .device 2], rfl, rfl, rfl, rfl⟩

theorem witness_TransportErrorEndsCommand : ∃ s t : State,
    s.block = .busy (.writeReg .mdr0 5) 0 none none ∧ s.current = some (.write, .mdr0) ∧ admitted .write .mdr0 = true ∧
    s.nextDraw.answer = .fail 7 false ∧ step s = .next t :=
  ⟨inForm (.busy (.writeReg .mdr0 5) 0 none none) [.fail 7 false], _, rfl, rfl, rfl, rfl, rfl⟩

theorem witness_SetCountsResidue : ∃ s t u s' t' u' : State,
    (s.block = .busy (.setCounts 5) 0 none none ∧ s.nextDraw.answer = .fail 7 true ∧ step s = .next s') ∧
    (t.block = .busy (.setCounts 5) 1 (some .w16) none ∧ t.nextDraw.answer = .fail 7 true ∧ step t = .next t') ∧
    (u.block = .busy (.setCounts 5) 2 (some .w16) none ∧ u.nextDraw.answer = .fail 7 false ∧ step u = .next u') :=
  ⟨inForm (.busy (.setCounts 5) 0 none none) [.fail 7 true], inForm (.busy (.setCounts 5) 1 (some .w16) none) [.fail 7 true],
    inForm (.busy (.setCounts 5) 2 (some .w16) none) [.fail 7 false], _, _, _, ⟨rfl, rfl, rfl⟩, ⟨rfl, rfl, rfl⟩,
    ⟨rfl, rfl, rfl⟩⟩

theorem witness_SilentChannelStalls : ∃ s : State,
    s.Inv ∧ s.block ≠ .idle ∧ s.nextDraw.answer = .silent ∧
    (∀ op reg, s.current = some (op, reg) → admitted op reg = true) :=
  ⟨inForm (.busy .getCounts 0 none none) [.silent], ⟨by decide, by decide⟩, by decide, rfl, by
    intro op reg h; cases h; rfl⟩

theorem witness_OneOutcomePerCommand : ∃ s t u v : State, step s = .next t ∧ s.block = .idle ∧ step u = .next v ∧
    u.block ≠ .idle ∧ v.block = .idle :=
  ⟨waiting [.encode .read .mdr0] [], _, inForm (.busy (.load .otr) 0 none none) [.device 0], _, rfl, rfl, rfl, by decide, rfl⟩

theorem witness_WidthLatchedOnce : ∃ s t u : State,
    (s.block = .idle ∧ s.requests = .readReg .otr :: [] ∧ latchesWidth (.readReg .otr) = true ∧
      verdict s.params (.readReg .otr) = none) ∧
    (t.Inv ∧ t.block = .busy (.setCounts 5) 1 (some .w8) none ∧ step t = .next u) :=
  ⟨waiting [.readReg .otr] [], inForm (.busy (.setCounts 5) 1 (some .w8) none) [.device 0], _, ⟨rfl, rfl, rfl, rfl⟩,
    ⟨by decide, by decide⟩, rfl, rfl⟩

theorem witness_InterleavedWriteIsLost : ∃ s : State,
    s.block = .busy (.setField .indexSync (.option .synchronous)) 1 none (some 0x2F) ∧ readOnly .indexSync = false ∧
    codeOf s.params .indexSync (.option .synchronous) = some 1 ∧
    s.env = [{ change := .foreign { dev with mdr0 := 0xFF }, answer := .device 0 }] :=
  ⟨{ inForm (.busy (.setField .indexSync (.option .synchronous)) 1 none (some 0x2F)) [] with
      env := [{ change := .foreign { dev with mdr0 := 0xFF }, answer := .device 0 }] }, rfl, rfl, rfl, rfl⟩

theorem witness_SpareBitOfMdr1 : ∃ s t : State,
    s.params.layout = .standard ∧ s.reply .write [] = .returned [] ∧
    s.block = .busy (.setField .bits (.int 16)) 1 none (some 0x08) ∧ holder .bits = .mdr1 ∧
    codeOf s.params .bits (.int 16) = some 2 ∧
    t.params.layout = .standard ∧ t.reply .write [] = .returned [] ∧ t.block = .busy (.writeReg .mdr1 0x08) 0 none none :=
  ⟨inForm _ [.device 0], inForm _ [.device 0], rfl, rfl, rfl, rfl, rfl, rfl, rfl, rfl⟩

theorem witness_StatusOnlyCleared : ∃ s t u v : State, exec .clrStr s = .next t ∧ exec .wrMdr0 u = .next v :=
  ⟨inForm (.busy (.clear .str) 0 none none) [.device 0], _, inForm (.busy (.writeReg .mdr0 5) 0 none none) [.device 0], _, rfl, rfl⟩

theorem witness_StepKeepsBlockForm : ∃ s t : State, s.Inv ∧ s.block ≠ .idle ∧ step s = .next t :=
  ⟨inForm (.busy (.setField .bits (.int 8)) 1 none (some 0xF4)) [.device 0], _, ⟨by decide, by decide⟩, by decide, rfl⟩

theorem witness_BlockNeverStops : (inForm (.busy .getCounts 1 (some .w32) none) [.respond []]).Inv :=
  ⟨by decide, by decide⟩

theorem witness_StepKeepsBusFrames : ∃ s t : State,
    s.BusOk ∧ s.bus = [{ prim := .exchange, out := [0x50, 0x00], reply := .returned [0x00, 0x02] }] ∧ step s = .next t :=
  ⟨{ inForm (.busy .getCounts 1 (some .w16) none) [.device 0] with
      bus := [{ prim := .exchange, out := [0x50, 0x00], reply := .returned [0x00, 0x02] }] }, _,
    by unfold State.BusOk; decide, rfl, rfl⟩

theorem witness_EchoIsIgnored : ∃ s t : State,
    s.env = [{ change := .quiet, answer := .respond (0xAA :: [0x2F]) }] ∧ s.block ≠ .idle ∧ step s = .next t :=
  ⟨inForm (.busy (.readReg .mdr0) 0 none none) [.respond [0xAA, 0x2F]], _, rfl, by decide, rfl⟩

theorem witness_CommandsEnd : ∃ s : State, s.Inv ∧ s.ChannelReturns ∧ s.block = .busy (.setCounts 5) 0 none none :=
  ⟨inForm _ [.device 0, .fail 7 false], ⟨by decide, by decide⟩, ⟨by decide, fun h => nomatch h⟩, rfl⟩

theorem witness_TransactionCounts : ∃ s : State,
    s.Inv ∧ s.Calm ∧ s.block = .idle ∧ s.requests = .writeReg .dtr (2 ^ 32 - 1) :: [] ∧
    (∀ op reg, rawPair (.writeReg .dtr (2 ^ 32 - 1)) = some (op, reg) → admitted op reg = true) ∧
    verdict s.params (.writeReg .dtr (2 ^ 32 - 1)) = none :=
  ⟨waiting [.writeReg .dtr (2 ^ 32 - 1)] [], ⟨by decide, by decide⟩, ⟨rfl, by decide⟩, rfl, rfl,
    by intro op reg h; cases h; rfl, by decide⟩

theorem witness_SignedDecode : 0x80 < 2 ^ Width.w8.bits ∧ 2 ^ 32 - 1 < 2 ^ Width.w32.bits := by decide

theorem witness_SignedEncode :
    (-(2 ^ (Width.w8.bits - 1) : Int) ≤ -128 ∧ (-128 : Int) ≤ 2 ^ (Width.w8.bits - 1) - 1) ∧
    (-(2 ^ (Width.w8.bits - 1) : Int) ≤ 300 - 1 * 2 ^ Width.w8.bits ∧
      (300 - 1 * 2 ^ Width.w8.bits : Int) ≤ 2 ^ (Width.w8.bits - 1) - 1) := by decide

theorem witness_CountsRoundTrip : ∃ s : State,
    s.Inv ∧ s.Calm ∧ s.block = .idle ∧
    s.requests = .setField .bits (.int Width.w16.bits) :: .setCounts (-32768) :: .getCounts :: [] ∧
    -(2 ^ (Width.w16.bits - 1) : Int) ≤ -32768 ∧ (-32768 : Int) ≤ 2 ^ (Width.w16.bits - 1) - 1 :=
  ⟨waiting [.setField .bits (.int 16), .setCounts (-32768), .getCounts] [], ⟨by decide, by decide⟩, ⟨rfl, by decide⟩, rfl,
    rfl, by decide, by decide⟩

theorem witness_SnapshotReads : ∃ s : State,
    s.Inv ∧ s.block = .idle ∧ s.requests = .load .otr :: .readReg .otr :: [] ∧
    s.env = [{ change := .quiet, answer := .device 1 },
      { change := .activity 0x9999 s.dev.cntr 0x02, answer := .device 2 }, { change := .quiet, answer := .device 3 }] :=
  ⟨{ waiting [.load .otr, .readReg .otr] [] with
      env := [{ change := .quiet, answer := .device 1 },
        { change := .activity 0x9999 0x8000 0x02, answer := .device 2 }, { change := .quiet, answer := .device 3 }] },
    ⟨by decide, by decide⟩, rfl, rfl, rfl⟩

theorem witness_FieldIsolation :
    Params.standard.legal = true ∧ codeOf .standard .flagSources (.int 15) = some 15 ∧ Field.bits ≠ .flagSources ∧
    holder .bits = holder .flagSources ∧ holder .flagSources = .mdr1 := by decide

theorem witness_FieldMapsBijective : c30.legal = true ∧ (3 : Nat) ≤ fieldMask .bits ∧ codeOf c30 .bits (.int 8) = some 3 := by
  decide

theorem witness_ModeFieldMasks : c30.layout = .standard := rfl

theorem witness_StatusFieldBits : ∃ s : State,
    s.params.layout = .standard ∧
    (Field.carryLatch, (0x80 : Byte)) ∈ [(Field.sign, (0x01 : Byte)), (.direction, 0x02), (.powerLoss, 0x04),
      (.countEnableEcho, 0x08), (.indexLatch, 0x10), (.compareLatch, 0x20), (.borrowLatch, 0x40), (.carryLatch, 0x80)] ∧
    s.block = .busy (.getField .carryLatch) 0 none none ∧
    s.reply .exchange [0x40 ||| statusByte s.params.statusCode, 0x00] = .returned [0x00, 0x81] :=
  ⟨inForm _ [.respond [0x00, 0x81]], rfl, by decide, rfl, rfl⟩

theorem witness_StatusViewAgrees : c30.legal = true := by decide

theorem witness_FieldCodes : c30.widthOf = .standard ∧ holder .carryLatch = .str := ⟨rfl, rfl⟩

/-- WR DTR at width 16, the one frame whose length depends on the width, and a control frame. -/
theorem witness_FramesIdempotent :
    [(0xFF : Byte), 0xFE].length = payloadLen .wrDtr (widthOfByte .standard dev.mdr1) ∧
    ([] : List Byte).length = payloadLen .loadCntr (widthOfByte .standard dev.mdr1) := by decide

theorem witness_GetAfterSet : ∃ s t : State,
    (t.block = .idle ∧ t.requests = .setField .carryLatch (.bool false) :: [] ∧ holder .carryLatch = .str) ∧ s.Inv ∧ s.Exclusive ∧ s.block = .idle ∧
    s.requests = .setField .quadrature (.int 4) :: .getField .quadrature :: [] ∧ readOnly .quadrature = false ∧
    codeOf s.params .quadrature (.int 4) = some 3 :=
  ⟨{ waiting [.setField .quadrature (.int 4), .getField .quadrature] [] with
      env := [{ change := .activity 0x8001 0x0100 0x02, answer := .device 1 }] },
    waiting [.setField .carryLatch (.bool false)] [], ⟨rfl, rfl, rfl⟩, ⟨by decide, by decide⟩,
    ⟨rfl, fun d hd => by cases hd with
      | head => exact ⟨rfl, 1, rfl⟩
      | tail _ h => cases h⟩, rfl, rfl, rfl, rfl⟩

end Sys2Proof.Tests
end

section
/-! PROOFS. The statements of 10_state: the block's form, its outcomes, its history, reset and acceptance. -/

namespace Sys2Proof.Machine

open Sys2Proof.Claims

/-! ### The forms of the block (R21, R22) -/

/-- The allowed `Busy` forms, as a proposition. -/
theorem blockOk_busy_iff {p : Params} {c : Command} {k : Nat} {w : Option Width} {held : Option Byte} :
    blockOk p (.busy c k w held) = true ↔
      verdict p c = none ∧ k < (program c).length ∧ w.isSome = (latchesWidth c && k != 0) ∧
        held.isSome = (holdsByte c && k != 0) := by
  simp [blockOk, and_assoc]

/-- Every command that is accepted has an instruction byte to run; only `ENCODE` has none, and it is answered at once. -/
theorem program_pos_of_verdict_none {p : Params} {c : Command} (hv : verdict p c = none) : 0 < (program c).length := by
  cases c with
  | encode op reg => simp [verdict] at hv
  | readReg reg => simp only [program, rawProgram]; split <;> simp
  | writeReg reg v => simp only [program, rawProgram]; split <;> simp
  | load reg | clear reg | getCounts | setCounts v | getField f | setField f x => simp [program]

/-- No command both latches a width and holds a byte (R22). -/
theorem holdsByte_eq_false_of_latchesWidth {c : Command} (h : latchesWidth c = true) : holdsByte c = false := by
  cases c with
  | setField f x => cases h
  | encode op reg | readReg reg | writeReg reg v | load reg | clear reg | getCounts | setCounts v | getField f => rfl

theorem State.Inv.of_idle {s : State} (hp : s.params.legal = true) (hb : s.block = .idle) : s.Inv :=
  ⟨hp, by rw [hb]; rfl⟩

/-- Accepting a command puts the block in the first form of that command, or leaves it Idle. -/
theorem State.Inv.accept {s : State} (hi : s.Inv) (hb : s.block = .idle) : s.accept.Inv := by
  rcases s.accept_cases with ⟨-, h⟩ | ⟨c, rest, -, hv, h⟩ | ⟨c, rest, r, -, -, h⟩ <;> rw [h]
  · exact hi
  · exact ⟨hi.1, blockOk_busy_iff.2 ⟨hv, program_pos_of_verdict_none hv, by simp, by simp⟩⟩
  · exact .of_idle hi.1 hb

/-- Going on to the next transaction keeps the form: the width or the byte that the first one brought stays. -/
theorem State.Inv.busy_step {s t : State} {c : Command} {k : Nat} {w : Option Width} {held : Option Byte}
    (hi : s.Inv) (hb : s.block = .busy c k w held) (h : step s = .next t) : t.Inv := by
  obtain ⟨hv, -, hw, hh⟩ := ready_of_inv hi hb
  rcases step_forms hi hb h with rfl | ⟨hidle, hp⟩ | ⟨hp, hk, hform⟩
  · exact hi
  · exact .of_idle (hp ▸ hi.1) hidle
  · refine ⟨hp ▸ hi.1, ?_⟩
    rw [hp]
    rcases hform with ⟨rfl, hl, w', ht⟩ | ⟨rfl, hl, b, ht⟩ | ⟨hk0, ht⟩ <;> rw [ht, blockOk_busy_iff]
    · exact ⟨hv, hk, by simp [hl], by simp [holdsByte_eq_false_of_latchesWidth hl]⟩
    · have hlatch : latchesWidth c = false := by
        by_contra hc
        simp [holdsByte_eq_false_of_latchesWidth (Bool.eq_true_of_not_eq_false hc)] at hl
      exact ⟨hv, hk, by simp [hlatch], by simp [hl]⟩
    · exact ⟨hv, hk, by simp [hw, hk0], by simp [hh, hk0]⟩

/-- Settles O41: acceptance enters the first form of a command that passed its checks, and a busy step keeps the form. -/
theorem stepKeepsBlockForm : Obligations.StepKeepsBlockForm := by
  intro s t hi h
  cases hb : s.block with
  | idle =>
    rw [step_idle hb] at h
    cases h
    exact hi.accept hb
  | busy c k w held => exact hi.busy_step hb h

/-! ### One outcome per command (R24, 60_exceptions R230) -/

/-- Settles O33: a step of an Idle block issues nothing and delivers what acceptance answers; a step of a busy one is one
instruction, whose transaction and result `exec_frames` counts. -/
theorem oneOutcomePerCommand : Obligations.OneOutcomePerCommand := by
  intro s t h
  rcases step_cases h with ⟨hb, rfl⟩ | ⟨c, k, w, held, op, reg, hb, -, he⟩
  · rcases s.accept_cases with ⟨-, h⟩ | ⟨c, rest, -, -, h⟩ | ⟨c, rest, r, hr, -, h⟩ <;> rw [h]
    · exact ⟨.inl rfl, .inl ⟨rfl, id⟩⟩
    · exact ⟨.inl rfl, .inl ⟨rfl, fun _ => hb⟩⟩
    · exact ⟨.inl rfl, .inr ⟨c, r, rfl, hb, .inr ⟨hb, hr⟩⟩⟩
  · obtain ⟨c, k, w, held, hb, -, -, he⟩ := exec_frames he
    rcases he with ⟨-, rfl⟩ | ⟨-, -, rfl⟩ | ⟨-, -, prim, payload, b, new, hnew, hstays, rfl⟩
    · exact ⟨.inl rfl, .inr ⟨c, _, rfl, rfl, .inl ⟨k, w, held, hb⟩⟩⟩
    · exact ⟨.inl rfl, .inl ⟨rfl, id⟩⟩
    · refine ⟨.inr ⟨_, rfl⟩, ?_⟩
      rcases hnew with rfl | ⟨r, rfl, rfl⟩
      · exact .inl ⟨rfl, fun hidle => absurd hidle (hstays rfl)⟩
      · exact .inr ⟨c, r, rfl, rfl, .inl ⟨k, w, held, hb⟩⟩

/-! ### The history of the two ports (R20) -/

/-- `s` with older results and transactions behind its own. -/
def State.withHistory (results : List (Command × Result)) (bus : List Transaction) (s : State) : State :=
  { s with results := s.results ++ results, bus := s.bus ++ bus }

/-- An outcome with its next state changed by `f`. -/
def mapNext (f : State → State) : Host.Outcome State Fault Refusal → Host.Outcome State Fault Refusal
  | .next t => .next (f t)
  | .fault r => .fault r
  | .refused r => .refused r

@[simp] theorem mapNext_next (f : State → State) (t : State) : mapNext f (.next t) = .next (f t) := rfl
@[simp] theorem mapNext_fault (f : State → State) (r : Fault) : mapNext f (.fault r) = .fault r := rfl

section withHistory
variable (results : List (Command × Result)) (bus : List Transaction) (s : State)

@[simp] theorem State.withHistory_params : (s.withHistory results bus).params = s.params := rfl
@[simp] theorem State.withHistory_block : (s.withHistory results bus).block = s.block := rfl
@[simp] theorem State.withHistory_current : (s.withHistory results bus).current = s.current := rfl
@[simp] theorem State.withHistory_fetch : (s.withHistory results bus).fetch = s.fetch := rfl
@[simp] theorem State.withHistory_reply (prim : Primitive) (out : List Byte) :
    (s.withHistory results bus).reply prim out = s.reply prim out := rfl
@[simp] theorem State.withHistory_transferBytes (reg : Reg) :
    (s.withHistory results bus).transferBytes reg = s.transferBytes reg := rfl
@[simp] theorem State.withHistory_writeValue : (s.withHistory results bus).writeValue = s.writeValue := rfl

@[simp] theorem State.withHistory_transacted (prim : Primitive) (out : List Byte) :
    (s.withHistory results bus).transacted prim out = (s.transacted prim out).withHistory results bus := rfl
@[simp] theorem State.withHistory_advance (w : Option Width) (held : Option Byte) :
    (s.withHistory results bus).advance w held = (s.advance w held).withHistory results bus := rfl
@[simp] theorem State.withHistory_latch (v : Nat) :
    (s.withHistory results bus).latch v = (s.latch v).withHistory results bus := rfl

@[simp] theorem State.withHistory_deliver (r : Result) :
    (s.withHistory results bus).deliver r = (s.deliver r).withHistory results bus := by
  cases hb : s.block <;> simp [State.deliver, State.withHistory, hb]

@[simp] theorem State.withHistory_accept :
    (s.withHistory results bus).accept = s.accept.withHistory results bus := by
  cases hr : s.requests with
  | nil => simp [State.accept, State.withHistory, hr]
  | cons c rest => cases hv : verdict s.params c <;> simp [State.accept, State.withHistory, hr, hv]

@[simp] theorem State.withHistory_afterWrite :
    (s.withHistory results bus).afterWrite = s.afterWrite.withHistory results bus := by
  cases hb : s.block with
  | idle => simp [State.afterWrite, hb]
  | busy c k w held => simp only [State.afterWrite, State.withHistory_block, hb]; split <;> simp

@[simp] theorem State.withHistory_afterRead (v : Nat) :
    (s.withHistory results bus).afterRead v = mapNext (State.withHistory results bus) (s.afterRead v) := by
  cases hb : s.block with
  | idle => simp [State.afterRead, hb]
  | busy c k w held =>
    cases c with
    | readReg reg => simp only [State.afterRead, State.withHistory_block, hb]; split <;> simp
    | getCounts =>
      simp only [State.afterRead, State.withHistory_block, hb]
      split
      · simp
      · cases w <;> simp
    | encode op reg | writeReg reg v | load reg | clear reg | setCounts v | getField f | setField f x =>
      simp [State.afterRead, hb]

@[simp] theorem State.withHistory_transact (prim : Primitive) (out : List Byte) :
    (s.withHistory results bus).transact prim out =
      mapNext (State.withHistory results bus) (s.transact prim out) := by
  cases hr : s.reply prim out with
  | silent | failed e => simp [State.transact, hr]
  | returned rx =>
    cases prim with
    | write => simp [State.transact, hr]
    | exchange => simp only [State.transact, State.withHistory_reply, hr]; split <;> simp

theorem runRead_withHistory (reg : Reg) :
    runRead reg (s.withHistory results bus) = mapNext (State.withHistory results bus) (runRead reg s) := by
  by_cases hc : s.current = some (.read, reg)
  · cases hn : s.transferBytes reg <;> simp [runRead, hc, hn]
  · simp [runRead, hc]

theorem runWrite_withHistory (reg : Reg) :
    runWrite reg (s.withHistory results bus) = mapNext (State.withHistory results bus) (runWrite reg s) := by
  by_cases hc : s.current = some (.write, reg)
  · cases hn : s.transferBytes reg <;> cases hv : s.writeValue <;> simp [runWrite, hc, hn, hv]
  · simp [runWrite, hc]

theorem runControl_withHistory (op : Op) (reg : Reg) :
    runControl op reg (s.withHistory results bus) =
      mapNext (State.withHistory results bus) (runControl op reg s) := by
  by_cases hc : s.current = some (op, reg) <;> simp [runControl, hc]

theorem refusePair_withHistory (op : Op) (reg : Reg) :
    refusePair op reg (s.withHistory results bus) =
      mapNext (State.withHistory results bus) (refusePair op reg s) := by
  by_cases hc : s.current = some (op, reg) <;> simp [refusePair, hc]

theorem exec_withHistory (i : Instr) :
    exec i (s.withHistory results bus) = mapNext (State.withHistory results bus) (exec i s) := by
  rw [exec_eq i, exec_instrOf, exec_instrOf]
  split
  · cases opOf i with
    | read => exact runRead_withHistory results bus s _
    | write => exact runWrite_withHistory results bus s _
    | clear | load => exact runControl_withHistory results bus s _ _
  · exact refusePair_withHistory results bus s _ _

theorem step_withHistory :
    step (s.withHistory results bus) = mapNext (State.withHistory results bus) (step s) := by
  cases hb : s.block with
  | idle => simp [step, hb]
  | busy c k w held =>
    simp only [step, State.withHistory_block, hb, State.withHistory_fetch]
    cases s.fetch with
    | none => rfl
    | some i => exact exec_withHistory results bus s i

end withHistory

/-- Settles O44: each shared operation, and so the step, commutes with appending older history. -/
theorem historyIsNotRead : Obligations.HistoryIsNotRead := by
  intro s results bus
  rw [show { s with results := s.results ++ results, bus := s.bus ++ bus } = s.withHistory results bus from rfl,
    step_withHistory]
  cases step s <;> rfl

/-! ### STR (R29, R34) -/

theorem opOf_clear_of_admitted_str {op : Op} (ha : admitted op .str = true) (hr : op ≠ .read) : op = .clear := by
  cases op with
  | clear => rfl
  | read => exact absurd rfl hr
  | write | load => cases ha

/-- A completed CLR STR leaves zero in STR, and a failed one may have reached the device. -/
theorem landing_clear_str (s : State) (payload : List Byte) (hs : s.nextDraw.answer ≠ .silent) :
    (s.landing (encodeByte s.params .clear .str :: payload)).str = s.arrival.str ∨
      (s.landing (encodeByte s.params .clear .str :: payload)).str = 0 := by
  cases ha : s.nextDraw.answer with
  | device echo | respond rx => right; simp [State.landing, ha, afterInstr, instrOf]
  | fail e landed => cases landed <;> simp [State.landing, ha, afterInstr, instrOf]
  | silent => exact absurd ha hs

/-- Settles O37: a refusal and a silent channel leave the device; a frame of another register, or a read, leaves STR as it
was on arrival; the one other frame on STR is CLR STR. -/
theorem statusOnlyCleared : Obligations.StatusOnlyCleared := by
  intro i s t h
  rw [exec_eq i] at h
  obtain ⟨c, k, w, held, -, -, -, he⟩ := exec_frames h
  rcases he with ⟨-, rfl⟩ | ⟨-, -, rfl⟩ | ⟨ha, hs, prim, payload, b, new, -, -, rfl⟩
  · exact .inl rfl
  · exact .inl rfl
  · right
    by_cases hframe : opOf i = .read ∨ .str ≠ regOf i
    · exact .inl (BitVec.eq_of_toNat_eq (landing_frame s (opOf i) (regOf i) payload .str hs hframe))
    · obtain ⟨hread, hreg⟩ := not_or.1 hframe
      have hstr : regOf i = .str := (not_not.1 hreg).symm
      have hclr : opOf i = .clear := opOf_clear_of_admitted_str (hstr ▸ ha) hread
      have hi : i = .clrStr := by rw [exec_eq i, hstr, hclr]; rfl
      rw [hstr, hclr]
      exact (landing_clear_str s payload hs).imp_right (⟨hi, ·⟩)

/-! ### Completed writes, and bit 3 of MDR1 (R31) -/

/-- What a Write's reply says does not depend on the bytes (00_scope R12). -/
theorem State.reply_write_eq (s : State) (out out' : List Byte) : s.reply .write out = s.reply .write out' := by
  cases ha : s.nextDraw.answer <;> simp [State.reply, ha]

/-- A transaction that returned has reached the device. -/
theorem State.landing_of_returned {s : State} {prim : Primitive} {out rx : List Byte} (out' : List Byte)
    (h : s.reply prim out = .returned rx) : s.landing out' = deviceAfter s.params s.drawn s.arrival out' := by
  cases ha : s.nextDraw.answer with
  | device echo | respond rx' => simp [State.landing, ha]
  | fail e landed | silent => simp [State.reply, ha] at h

@[simp] theorem State.afterWrite_dev (s : State) : s.afterWrite.dev = s.dev := by
  cases hb : s.block with
  | idle => simp [State.afterWrite, hb]
  | busy c k w held => rcases State.afterWrite_cases hb with ⟨-, h⟩ | ⟨-, h⟩ <;> simp [h]

/-- The current transaction is a WR MDR1 of the value `v`, and the Write completes: MDR1 holds the low byte of `v`. -/
theorem step_wrMdr1 {s : State} {v : Nat} (hc : s.current = some (.write, .mdr1)) (hv : s.writeValue = some v)
    (hr : s.reply .write [] = .returned []) : ∃ t, step s = .next t ∧ t.dev.mdr1 = BitVec.ofNat 8 v := by
  obtain ⟨c, k, w, held, hb⟩ := current_busy_of hc
  set out := writeFrame s.params .mdr1 1 v with hout
  have hr' : s.reply .write out = .returned [] := (s.reply_write_eq out []).trans hr
  have hstep : step s = .next (s.transacted .write out).afterWrite := by
    rw [step_busy hb (by rw [← State.current_busy hb, hc]), exec_instrOf]
    simp [admitted, runWrite, hc, hv, State.transferBytes, isWide, State.transact, ← hout, hr']
  refine ⟨_, hstep, ?_⟩
  rw [State.afterWrite_dev, State.transacted_dev, State.landing_of_returned out hr', hout, writeFrame,
    deviceAfter_encodeByte]
  exact BitVec.eq_of_toNat_eq (by simp [instrOf, afterInstr, be, payloadByte])

theorem placedMask_bit3 {p : Params} (hl : p.layout = .standard) {f : Field} (hf : holder f = .mdr1) :
    (placedMask p f).getLsbD 3 = false := by
  rw [placedMask, hl, BitVec.getLsbD_shiftLeft, mask_bit]
  cases f <;> cases hf <;> rfl

/-- A code of an MDR1 field, in place, has no bit 3 either. -/
theorem placedCode_bit3 {p : Params} (hl : p.layout = .standard) {f : Field} (hf : holder f = .mdr1) {c : Nat}
    (hc : c ≤ fieldMask f) : (BitVec.ofNat 8 c <<< shiftOf p.layout f).getLsbD 3 = false := by
  rw [hl, BitVec.getLsbD_shiftLeft, BitVec.getLsbD_ofNat]
  by_cases hbelow : 3 < shiftOf .standard f
  · simp [hbelow]
  · have habove : fieldWidth f ≤ 3 - shiftOf .standard f := by
      cases f <;> cases hf <;> revert hbelow <;> decide
    simp [code_bit hc habove]

theorem mergeField_bit3 {p : Params} (hl : p.layout = .standard) {f : Field} (hf : holder f = .mdr1) {c : Nat}
    (hc : c ≤ fieldMask f) (b : Byte) : (mergeField p f c b).getLsbD 3 = b.getLsbD 3 := by
  rw [mergeField, BitVec.getLsbD_or, BitVec.getLsbD_and, BitVec.getLsbD_not, placedMask_bit3 hl hf,
    placedCode_bit3 hl hf hc]
  simp

/-- Settles O36: the mask and the code of an MDR1 field leave bit 3 alone, and a completed WR MDR1 writes the byte given. -/
theorem spareBitOfMdr1 : Obligations.SpareBitOfMdr1 := by
  intro s w held hl hr
  refine ⟨fun f hf => placedMask_bit3 hl hf, fun f x code b hb hf hcode => ?_, fun v hb => ?_⟩
  · obtain ⟨t, ht, hdev⟩ := step_wrMdr1 (v := (mergeField s.params f code b).toNat)
      (by simp [State.current_busy hb, program, hf]) (by simp [State.writeValue, hb, hcode]) hr
    exact ⟨t, ht, by rw [hdev, BitVec.ofNat_toNat, BitVec.setWidth_eq, mergeField_bit3 hl hf (codeOf_le hcode)]⟩
  · obtain ⟨t, ht, hdev⟩ := step_wrMdr1 (v := v)
      (by simp [State.current_busy hb, program, rawProgram, isWide]) (by simp [State.writeValue, hb]) hr
    exact ⟨t, ht, by rw [hdev, BitVec.getLsbD_ofNat]; simp⟩

/-! ### Field maps (R30, 42_mode_fields R180) -/

/-- No value stands twice in a map. -/
theorem domain_nodup (p : Params) (f : Field) : (domain p f).Nodup := by
  cases f
  case flagSources =>
    exact (by decide : ((List.range 16).map fun n : Nat => Logical.int n).Nodup)
  all_goals simp [domain, fieldMap]

theorem codeOf_eq_some_iff {p : Params} {f : Field} {x : Logical} {c : Nat} :
    codeOf p f x = some c ↔ (x, c) ∈ fieldMap p f :=
  ⟨mem_of_lookup, lookup_of_mem (domain_nodup p f)⟩

theorem mem_domain_iff {p : Params} {f : Field} {x : Logical} : x ∈ domain p f ↔ ∃ c, codeOf p f x = some c := by
  rw [← Option.isSome_iff_exists, ← Option.ne_none_iff_isSome, Ne, lookup_none, not_not]

/-- A width code stands for the width it is the code of. -/
theorem logicalOf_codeOfWidth {p : Params} (h : p.widthOf.bijective = true) (w : Width) :
    logicalOf p .bits (codeOfWidth p.widthOf w) = .int w.bits := by
  simp [logicalOf, (width_code h).2 w]

/-- Every value with a code is the value of that code. -/
theorem logicalOf_of_codeOf {p : Params} (h : p.widthOf.bijective = true) {f : Field} {x : Logical} {c : Nat}
    (hc : codeOf p f x = some c) : logicalOf p f c = x := by
  have hm := codeOf_eq_some_iff.1 hc
  cases f
  case bits =>
    simp only [fieldMap, List.mem_cons, Prod.mk.injEq, List.not_mem_nil, or_false] at hm
    rcases hm with ⟨rfl, rfl⟩ | ⟨rfl, rfl⟩ | ⟨rfl, rfl⟩ | ⟨rfl, rfl⟩ <;> exact logicalOf_codeOfWidth h _
  case flagSources =>
    simp only [fieldMap, List.mem_map, Prod.mk.injEq] at hm
    obtain ⟨n, -, rfl, rfl⟩ := hm
    rfl
  case quadrature | countMode | indexMode =>
    simp only [fieldMap, List.mem_cons, Prod.mk.injEq, List.not_mem_nil, or_false] at hm
    rcases hm with ⟨rfl, rfl⟩ | ⟨rfl, rfl⟩ | ⟨rfl, rfl⟩ | ⟨rfl, rfl⟩ <;> rfl
  all_goals
    simp only [fieldMap, List.mem_cons, Prod.mk.injEq, List.not_mem_nil, or_false] at hm
    rcases hm with ⟨rfl, rfl⟩ | ⟨rfl, rfl⟩ <;> rfl

/-- Every code of a field is the code of its value. -/
theorem codeOf_logicalOf {p : Params} (h : p.widthOf.bijective = true) {f : Field} {c : Nat} (hc : c ≤ fieldMask f) :
    codeOf p f (logicalOf p f c) = some c := by
  rw [codeOf_eq_some_iff]
  cases f
  case bits =>
    have hcode : codeOfWidth p.widthOf (widthOfCode p.widthOf c) = c := (width_code h).1 c hc
    cases hw : widthOfCode p.widthOf c <;> rw [hw] at hcode <;> simp [fieldMap, logicalOf, hw, hcode, Width.bits]
  case flagSources =>
    exact List.mem_map.2 ⟨c, List.mem_range.2 (Nat.lt_succ_of_le hc), rfl⟩
  all_goals
    change c ≤ _ at hc
    simp only [fieldMask, fieldWidth] at hc
    interval_cases c <;> simp [fieldMap, logicalOf]

/-- Settles O54: both laws of a map and its code rest on `WIDTH_OF` alone, which legal parameters make a bijection. -/
theorem fieldMapsBijective : Obligations.FieldMapsBijective := by
  intro p f hlegal
  have hw : p.widthOf.bijective = true := by
    simp only [Params.legal, Bool.and_eq_true] at hlegal
    exact hlegal.1.1.1
  exact ⟨fun c hc => codeOf_logicalOf hw hc, fun x c hc => ⟨codeOf_le hc, logicalOf_of_codeOf hw hc⟩,
    fun x => mem_domain_iff⟩

/-- The map of a field is what the model's table lists, up to order. -/
theorem mapIs_of_mem_iff {p : Params} (h : p.widthOf.bijective = true) {f : Field} {pairs : List (Logical × Nat)}
    (hm : ∀ q, q ∈ fieldMap p f ↔ q ∈ pairs) : MapIs p f pairs := by
  have hcode : ∀ x c, codeOf p f x = some c ↔ (x, c) ∈ pairs := fun x c => codeOf_eq_some_iff.trans (hm (x, c))
  exact ⟨hcode, fun x => mem_domain_iff.trans (exists_congr (hcode x)),
    fun x c hx => logicalOf_of_codeOf h ((hcode x c).2 hx)⟩

theorem mapIs_fieldMap {p : Params} (h : p.widthOf.bijective = true) (f : Field) : MapIs p f (fieldMap p f) :=
  mapIs_of_mem_iff h fun _ => Iff.rfl

theorem fieldMap_str {p : Params} {f : Field} (hf : holder f = .str) :
    fieldMap p f = [(.bool false, 0), (.bool true, 1)] := by
  cases f <;> cases hf <;> rfl

/-- At the default `WIDTH_OF` the widths 32, 24, 16, 8 have the codes 0 to 3. -/
theorem mem_fieldMap_bits {p : Params} (h : p.widthOf = .standard) (q : Logical × Nat) :
    q ∈ fieldMap p .bits ↔ q ∈ [(Logical.int 32, 0), (.int 24, 1), (.int 16, 2), (.int 8, 3)] := by
  simp only [fieldMap, h]
  exact (List.reverse_perm _).symm.mem_iff

/-- Settles O56: each map is the model's table as it stands, that of `bits` in the other order. -/
theorem fieldCodes : Obligations.FieldCodes := by
  intro p hp
  have hw : p.widthOf.bijective = true := by rw [hp]; rfl
  have hmap := mapIs_fieldMap hw
  exact ⟨hmap .quadrature, hmap .countMode, hmap .indexMode, hmap .indexSync, hmap .filterDiv,
    mapIs_of_mem_iff hw (mem_fieldMap_bits hp), hmap .enabled, hmap .flagSources,
    fun f hf => fieldMap_str (p := p) hf ▸ hmap f⟩

/-! ### Placement, acceptance and reset (R21, R22, R35) -/

/-- The current pair after placement is that of the placed instruction. -/
theorem State.placeInstr_current (s : State) (i : Instr) : (s.placeInstr i).current = some (opOf i, regOf i) := by
  cases i <;> rfl

/-- Settles O24: the placed instruction's pair is current, so it is fetched and run. -/
theorem placedInstructionRuns : Obligations.PlacedInstructionRuns := by
  intro s i
  have hc := s.placeInstr_current i
  obtain ⟨c, k, w, held, hb⟩ := current_busy_of hc
  refine ⟨by simp [State.fetch_eq, hc], ?_⟩
  rw [step_busy hb (by rw [← State.current_busy hb, hc]), instrOf_opOf_regOf]

/-- A raw command on a pair that is not admitted passes the checks of acceptance (log entry 7). -/
theorem verdict_of_not_admitted {c : Command} {op : Op} {reg : Reg} (p : Params) (hc : rawPair c = some (op, reg))
    (ha : admitted op reg = false) : verdict p c = none := by
  cases c <;> cases hc
  case writeReg => simp [verdict, ha]
  all_goals rfl

/-- It has the byte of its pair alone. -/
theorem program_of_not_admitted {c : Command} {op : Op} {reg : Reg} (hc : rawPair c = some (op, reg))
    (ha : admitted op reg = false) : program c = [(op, reg)] := by
  cases c <;> cases hc
  case readReg | writeReg => simp [program, rawProgram, ha]
  all_goals rfl

/-- The first step of that command is its refusal, with no transaction. -/
theorem step_of_not_admitted {s : State} {c : Command} {w : Option Width} {held : Option Byte} {op : Op} {reg : Reg}
    (hb : s.block = .busy c 0 w held) (hp : rawPair c = some (op, reg)) (ha : admitted op reg = false) :
    step s = .next (s.deliver (.refused (.unadmittedPair op reg))) := by
  have hc : (program c)[0]? = some (op, reg) := by rw [program_of_not_admitted hp ha]; rfl
  rw [step_busy hb hc, exec_instrOf]
  simp [ha, refusePair, State.current_busy hb, hc]

/-- Settles O25: acceptance goes by `verdict`, and the first step of a pair that is not admitted is its refusal. -/
theorem idleAccepts : Obligations.IdleAccepts := by
  intro s c rest hb hr
  refine ⟨fun hv => by simp [step_idle hb, State.accept, hr, hv],
    fun r hv => by simp [step_idle hb, State.accept, hr, hv], fun op reg hp ha => ?_⟩
  exact ⟨verdict_of_not_admitted _ hp ha, by rw [step_of_not_admitted rfl hp ha]; simp [State.deliver, hb]⟩

/-- Settles O38: with no request waiting, acceptance leaves the reset state as it is. -/
theorem resetIsIdle : Obligations.ResetIsIdle :=
  ⟨rfl, rfl, rfl, rfl, step_idle rfl⟩

/-- Settles O40: the reset block is Idle under the default parameters, and nothing is on the bus. -/
theorem resetMeetsInvariants : Obligations.ResetMeetsInvariants :=
  ⟨.of_idle (by decide) rfl, fun t ht => by cases ht⟩

end Sys2Proof.Machine
end

section
/-! PROOFS. The statements of 20_memory: byte order, the device after power-on, and a frame repeated. -/

namespace Sys2Proof.Machine

/-! ### Byte order (R53, R54, 00_scope R11) -/

/-- The n-byte encoding gives the bytes back: the last byte of both is the remainder by 256, the rest is the quotient. -/
theorem be_unBE (bs : List Byte) : be (unBE bs) bs.length = bs := by
  induction bs using List.reverseRecOn with
  | nil => rfl
  | append_singleton bs b ih =>
    have hrest : (unBE bs * 256 + b.toNat) / 256 = unBE bs := by omega
    have hlast : BitVec.ofNat 8 (unBE bs * 256 + b.toNat) = b := by bv_omega
    rw [unBE_append_singleton, List.length_append, List.length_singleton, be_succ_append, hrest, hlast, ih]

/-- The first byte is the most significant one. -/
theorem unBE_cons (b : Byte) (bs : List Byte) : unBE (b :: bs) = b.toNat * 2 ^ (8 * bs.length) + unBE bs := by
  induction bs using List.reverseRecOn with
  | nil => simp [unBE]
  | append_singleton bs c ih =>
    have hpow : 2 ^ (8 * (bs ++ [c]).length) = 2 ^ (8 * bs.length) * 256 := by
      simp [Nat.mul_add, pow_add]
    rw [← List.cons_append, unBE_append_singleton, ih, unBE_append_singleton, hpow]
    ring

/-- Settles O48: each direction by its lemma on the last byte, the order by the one on the first. -/
theorem bigEndianBothWays : Obligations.BigEndianBothWays :=
  ⟨fun v n => ⟨length_be v n, unBE_be v n⟩, be_unBE, unBE_cons⟩

/-! ### The device after power-on (R71) -/

/-- Settles O39: reset takes the default parameters of 00_scope R6, and the device its power-on registers at them. -/
theorem resetDevice : Obligations.ResetDevice := ⟨rfl, rfl⟩

/-! ### A frame repeated (R60) -/

/-- A payload of one byte has no free value in it, so the byte a register takes is the same in every transaction. -/
theorem payloadByte_eq_of_length_one {payload : List Byte} (h : payload.length = 1) (k k' : Nat) :
    payloadByte k' payload = payloadByte k payload := by
  obtain ⟨b, rfl⟩ := List.length_eq_one_iff.1 h
  rfl

/-- Settles O60: a frame takes its value from the parameters, its payload or a register it leaves alone: LOAD CNTR copies
DTR, LOAD OTR copies CNTR, and the length of WR DTR goes by MDR1. -/
theorem framesIdempotent : Obligations.FramesIdempotent := by
  intro p k k' d i payload hlen
  cases i with
  | wrMdr0 | wrMdr1 => simp only [afterInstr, payloadByte_eq_of_length_one hlen k k']
  | wrDtr =>
    have hmatch : payload.length = deviceBytes p d := hlen
    have hkept : ∀ v, deviceBytes p { d with dtr := v } = deviceBytes p d := fun _ => rfl
    simp [afterInstr, hmatch, hkept]
  | clrMdr0 | clrMdr1 | clrCntr | clrStr | loadCntr | loadOtr => rfl
  | clrDtr | clrOtr | rdMdr0 | rdMdr1 | rdDtr | rdCntr | rdOtr | rdStr | wrCntr | wrOtr | wrStr
  | loadMdr0 | loadMdr1 | loadDtr | loadStr => rfl

end Sys2Proof.Machine
end

section
/-! PROOFS. The statements of 30_encoding: the constants and the instruction byte, the observer's stream of frames, the bytes that
are not admitted, and what goes out on the bus. -/

namespace Sys2Proof.Machine

open Sys2Proof.Claims

/-! ### The instruction byte (R82 to R85) -/

/-- Settles O1: the two tables, row by row, the Status row under both codes. -/
theorem encodingConstants : Obligations.EncodingConstants := by
  refine ⟨rfl, rfl, rfl, rfl, fun p => ⟨rfl, rfl, rfl, rfl, rfl, fun hc => ?_, fun hc => ?_, ?_, rfl, fun op => ?_,
    fun reg => ?_⟩⟩
  · simp [regByte, statusByte, hc]
  · simp [regByte, statusByte, hc]
  · cases p.statusCode <;> simp
  · cases op <;> rfl
  · cases reg with
    | str => cases hc : p.statusCode <;> simp [regByte, statusByte, hc]
    | mdr0 | mdr1 | dtr | cntr | otr => simp [regByte]

/-- The operation's constant lies in bits [7:6]. -/
theorem opByte_other_fields (op : Op) : (opByte op).extractLsb' 3 3 = 0 ∧ (opByte op).extractLsb' 0 3 = 0 := by
  cases op <;> decide

/-- The register's constant lies in bits [5:3], under both Status codes. -/
theorem regByte_other_fields (p : Params) (reg : Reg) :
    (regByte p reg).extractLsb' 6 2 = 0 ∧ (regByte p reg).extractLsb' 0 3 = 0 := by
  cases reg with
  | str => cases hc : p.statusCode <;> simp [regByte, statusByte, hc]
  | mdr0 | mdr1 | dtr | cntr | otr => simp [regByte]

theorem encodeByte_op_field (p : Params) (op : Op) (reg : Reg) :
    (encodeByte p op reg).extractLsb' 6 2 = (opByte op).extractLsb' 6 2 := by
  simp [encodeByte, BitVec.extractLsb'_or, regByte_other_fields p reg]

theorem encodeByte_select_field (p : Params) (op : Op) (reg : Reg) :
    (encodeByte p op reg).extractLsb' 3 3 = (regByte p reg).extractLsb' 3 3 := by
  simp [encodeByte, BitVec.extractLsb'_or, opByte_other_fields op]

theorem encodeByte_low_bits (p : Params) (op : Op) (reg : Reg) : (encodeByte p op reg).extractLsb' 0 3 = 0 := by
  simp [encodeByte, BitVec.extractLsb'_or, opByte_other_fields op, regByte_other_fields p reg]

theorem opByte_and_regByte (p : Params) (op : Op) (reg : Reg) : opByte op &&& regByte p reg = 0 := by
  cases reg with
  | str => cases hc : p.statusCode <;> cases op <;> simp [opByte, regByte, statusByte, hc]
  | mdr0 | mdr1 | dtr | cntr | otr => cases op <;> simp [opByte, regByte]

/-- Settles O2: the OR of two constants that share no bit is their sum; injectivity is the observer's recovery of the pair. -/
theorem encodeIsInjective : Obligations.EncodeIsInjective := by
  intro p op reg
  have hdisjoint := opByte_and_regByte p op reg
  refine ⟨rfl, hdisjoint, ?_, fun op' reg' h => encodeByte_injective p h⟩
  rw [encodeByte, ← BitVec.add_eq_or_of_and_eq_zero _ _ hdisjoint, BitVec.toNat_add_of_and_eq_zero hdisjoint]

/-- Settles O3: each field of the byte is that of one constant, since the other has zeros there. -/
theorem instructionByteFields : Obligations.InstructionByteFields := by
  intro p op reg
  obtain ⟨-, -, -, -, hconst⟩ := encodingConstants
  obtain ⟨-, -, -, -, -, -, -, -, -, hop, hsel⟩ := hconst p
  exact ⟨(encodeByte_op_field p op reg).trans (hop op), (encodeByte_select_field p op reg).trans (hsel reg),
    encodeByte_low_bits p op reg, decodeByte_encodeByte p op reg⟩

/-- The first byte of a word of eight bits is the word. -/
theorem tableBytes_toNat (b : Byte) : tableBytes 8 b.toNat = b :: (tableBytes 8 b.toNat).tail := by
  have hb : b.toNat % 256 = b.toNat := Nat.mod_eq_of_lt b.isLt
  simp [tableBytes, longestFrame, List.range_succ_eq_map, hb]

/-- An instruction byte as a word of the opcode table stands for its instruction. -/
theorem decodeTableWord_encodeByte (op : Op) (reg : Reg) :
    decodeTableWord 8 (encodeByte .standard op reg).toNat = some (instrOf op reg) := by
  rw [decodeTableWord, tableBytes_toNat, decode_encodeByte]

/-- Settles O4: each word is the byte of its pair. -/
theorem wordsDecode : Obligations.WordsDecode :=
  ⟨decodeTableWord_encodeByte .clear .mdr0, decodeTableWord_encodeByte .clear .str,
    decodeTableWord_encodeByte .clear .otr, decodeTableWord_encodeByte .read .mdr1,
    decodeTableWord_encodeByte .read .cntr, decodeTableWord_encodeByte .read .str,
    decodeTableWord_encodeByte .write .mdr0, decodeTableWord_encodeByte .write .dtr,
    decodeTableWord_encodeByte .load .cntr, decodeTableWord_encodeByte .load .otr,
    decodeByte_encodeByte _ .read .str⟩

/-! ### Reserved and admitted bytes (R88, R90) -/

/-- Settles O5: the decoder's three tests in their order; it accepts every byte that a pair encodes to. -/
theorem reservedBytesRejected : Obligations.ReservedBytesRejected := by
  intro p b
  refine ⟨fun hlow => ?_, fun hlow hsel => ?_, fun hlow hsel => ?_, fun ⟨e, he⟩ op reg hb => ?_⟩
  · exact if_pos hlow
  · simp [decodeByte, hlow, hsel]
  · cases hc : p.statusCode <;> simp [decodeByte, regOfSelect, statusByte, hlow, hsel, hc]
  · rw [← hb, decodeByte_encodeByte] at he
    cases he

/-- Settles O6: the 24 pairs of the default code against the table, and the two Status bytes of the other code. -/
theorem fourteenAdmittedBytes : Obligations.FourteenAdmittedBytes := by
  refine ⟨fun op reg => ?_, fun p hc => ?_⟩
  · cases op <;> cases reg <;> decide
  · simp [encodeByte, opByte, regByte, statusByte, hc]

/-! ### The observer's stream (R86, R91) -/

/-- A well-formed frame, as a proposition. -/
theorem frame_wellFormed_iff {w : Width} {f : Frame} :
    f.wellFormed w = true ↔ admitted (opOf f.instr) (regOf f.instr) = true ∧ f.payload.length = payloadLen f.instr w ∧
      (opOf f.instr = .read → f.payload = zeros f.payload.length) := by
  simp [Frame.wellFormed, and_assoc, imp_iff_not_or]

/-- A well-formed frame at the front of a stream is split off first. -/
theorem splitFrames_encodeFrame_append (p : Params) {w : Width} {f : Frame} (hf : f.wellFormed w = true) (fuel : Nat)
    (rest : List Byte) :
    splitFrames p w (fuel + 1) (encodeFrame p f ++ rest) = (splitFrames p w fuel rest).map (f :: ·) := by
  obtain ⟨-, hlen, -⟩ := frame_wellFormed_iff.1 hf
  have hd := decodeFrame_encodeFrame p w f rest hlen
  have hcons : encodeFrame p f ++ rest = encodeByte p (opOf f.instr) (regOf f.instr) :: (f.payload ++ rest) := rfl
  rw [hcons] at hd ⊢
  simp only [splitFrames, hd]

/-- Settles O7, by induction on the frames: each takes one unit of fuel. -/
theorem frameStreamSplits : Obligations.FrameStreamSplits := by
  intro p w fs
  induction fs with
  | nil => intro fuel _ _; cases fuel <;> rfl
  | cons f fs ih =>
    intro fuel hwf hfuel
    obtain ⟨hf, hfs⟩ := List.forall_mem_cons.1 hwf
    obtain _ | fuel := fuel
    · simp at hfuel
    · rw [List.flatMap_cons, splitFrames_encodeFrame_append p hf, ih fuel hfs (by simpa using hfuel)]
      rfl

/-! ### The ten bytes that are not admitted (R89) -/

theorem mem_notAdmitted_iff (i : Instr) : i ∈ notAdmitted ↔ admitted (opOf i) (regOf i) = false := by
  cases i <;> decide

/-- As the current byte, one that is not admitted is refused. -/
theorem exec_of_not_admitted {s : State} {i : Instr} (ha : admitted (opOf i) (regOf i) = false)
    (hc : s.current = some (opOf i, regOf i)) :
    exec i s = .next (s.deliver (.refused (.unadmittedPair (opOf i) (regOf i)))) := by
  rw [exec_eq i, exec_instrOf]
  simp [ha, refusePair, hc]

/-- Settles O20: the byte's whole effect is the delivery of its refusal, and acceptance answers `ENCODE` with the byte. -/
theorem unadmittedBytesRefuse : Obligations.UnadmittedBytesRefuse := by
  refine ⟨by decide, fun s i c k w held hi hb hc => ?_, fun s i rest _ hb hr => ?_⟩
  · rw [exec_of_not_admitted ((mem_notAdmitted_iff i).1 hi) hc]
    simp [State.deliver, hb]
  · simp [step_idle hb, State.accept, hr, verdict]

/-! ### The byte that a step runs (R85, 10_state R21) -/

/-- Settles O23: a current byte means a busy block, whose fetch is that byte decoded. -/
theorem stepRunsDecoded : Obligations.StepRunsDecoded := by
  intro s b i hb hd
  have hfetch : s.fetch = some i := by simp [State.fetch, hb, hd]
  cases hblock : s.block with
  | idle => simp [State.currentByte, State.current_idle hblock] at hb
  | busy c k w held => simp [step, hblock, hfetch]

/-! ### What goes out on the bus (R86, R88, 20_memory R57) -/

/-- The length of a transfer is that of the register at some width. -/
theorem State.exists_byteLen_of_transferBytes {s : State} {reg : Reg} {n : Nat} (h : s.transferBytes reg = some n) :
    ∃ w, n = byteLen reg w := by
  unfold State.transferBytes at h
  unfold byteLen
  cases hw : isWide reg with
  | false => exact ⟨.w8, by simpa [hw] using h.symm⟩
  | true =>
    simp only [hw, if_true, Option.map_eq_some_iff] at h ⊢
    obtain ⟨w, -, hn⟩ := h
    exact ⟨w, hn.symm⟩

/-- An instruction is a refusal, or one transaction of a well-formed frame by its primitive. -/
theorem exec_issues_wellFormed {s t : State} {op : Op} {reg : Reg} (h : exec (instrOf op reg) s = .next t) :
    t = s.deliver (.refused (.unadmittedPair op reg)) ∨
    ∃ w payload, Frame.wellFormed w { instr := instrOf op reg, payload := payload } = true ∧
      s.transact (if op = .read then .exchange else .write) (encodeByte s.params op reg :: payload) = .next t := by
  obtain ⟨-, ⟨-, rfl⟩ | ⟨ha, rfl, n, hn, h⟩ | ⟨ha, rfl, n, v, hn, -, h⟩ | ⟨ha, hop, h⟩⟩ := exec_cases h
  · exact .inl rfl
  · obtain ⟨w, rfl⟩ := State.exists_byteLen_of_transferBytes hn
    exact .inr ⟨w, zeros (byteLen reg w), frame_wellFormed_iff.2 ⟨by simpa using ha, by simp [payloadLen], by simp⟩, h⟩
  · obtain ⟨w, rfl⟩ := State.exists_byteLen_of_transferBytes hn
    exact .inr ⟨w, be (v % 2 ^ (8 * byteLen reg w)) (byteLen reg w),
      frame_wellFormed_iff.2 ⟨by simpa using ha, by simp [payloadLen], by simp⟩, h⟩
  · refine .inr ⟨.w8, [], frame_wellFormed_iff.2 ⟨by simpa using ha, ?_, by simp [zeros]⟩, ?_⟩
    · rcases hop with rfl | rfl <;> simp [payloadLen]
    · rcases hop with rfl | rfl <;> exact h

/-- A Write returns no bytes (00_scope R12). -/
theorem State.eq_nil_of_reply_write {s : State} {out rx : List Byte} (h : s.reply .write out = .returned rx) : rx = [] := by
  unfold State.reply at h
  split at h <;> cases h <;> rfl

/-- A well-formed frame that goes out by its primitive and is answered is a transaction the block may issue. -/
theorem transactionOk_reply {s : State} {w : Width} {op : Op} {reg : Reg} {prim : Primitive} {payload : List Byte}
    (hprim : prim = if op = .read then .exchange else .write)
    (hf : Frame.wellFormed w { instr := instrOf op reg, payload := payload } = true)
    (hs : s.reply prim (encodeByte s.params op reg :: payload) ≠ .silent) :
    transactionOk s.params
      { prim := prim
        out := encodeByte s.params op reg :: payload
        reply := s.reply prim (encodeByte s.params op reg :: payload) } = true := by
  have hany : [Width.w8, .w16, .w24, .w32].any
      (fun w => Frame.wellFormed w { instr := instrOf op reg, payload := payload }) = true :=
    List.any_eq_true.2 ⟨w, by cases w <;> simp, hf⟩
  simp only [transactionOk, decode_encodeByte, opOf_instrOf, hany, ← hprim]
  cases hr : s.reply prim (encodeByte s.params op reg :: payload) with
  | silent => exact absurd hr hs
  | failed e => simp
  | returned rx =>
    cases prim with
    | exchange => simp
    | write => simp [State.eq_nil_of_reply_write hr]

/-- A transaction that is answered puts itself on the bus and nothing else; a silent one changes nothing. -/
theorem State.BusOk.transact {s t : State} {c : Command} {k : Nat} {w' : Option Width} {held : Option Byte} {w : Width}
    {op : Op} {reg : Reg} {prim : Primitive} {payload : List Byte} (hok : s.BusOk)
    (hb : s.block = .busy c k w' held) (hprim : prim = if op = .read then .exchange else .write)
    (hf : Frame.wellFormed w { instr := instrOf op reg, payload := payload } = true)
    (h : s.transact prim (encodeByte s.params op reg :: payload) = .next t) : t.BusOk := by
  rcases transact_frame c k w' held hb h with ⟨rfl, -⟩ | ⟨b, new, -, -, hs, rfl⟩
  · exact hok
  · exact List.forall_mem_cons.2 ⟨transactionOk_reply hprim hf hs, hok⟩

/-- Settles O43: acceptance and a refusal leave the bus alone, and any other instruction issues one well-formed frame. -/
theorem stepKeepsBusFrames : Obligations.StepKeepsBusFrames := by
  intro s t hok h
  rcases step_cases h with ⟨-, rfl⟩ | ⟨c, k, w, held, op, reg, hb, -, he⟩
  · rcases s.accept_cases with ⟨-, h⟩ | ⟨c, rest, -, -, h⟩ | ⟨c, rest, r, -, -, h⟩ <;> rw [h] <;> exact hok
  · rcases exec_issues_wellFormed he with rfl | ⟨w', payload, hf, he⟩
    · exact hok
    · exact hok.transact hb rfl hf he

end Sys2Proof.Machine
end

section
/-! PROOFS. The statements of 40_encoder: the command `ENCODE`, and what each admitted instruction byte does and leaves unchanged. -/

namespace Sys2Proof.Machine

open Sys2Proof.Claims

/-! ### `ENCODE` (R110) -/

theorem encodeByte_ne_zero (p : Params) (op : Op) (reg : Reg) : encodeByte p op reg ≠ 0x00 := by
  intro h
  have hd := decodeByte_encodeByte p op reg
  rw [h] at hd
  cases hd

/-- Only the Status row of the table depends on the parameters. -/
theorem encodeByte_of_standard (p : Params) {op : Op} {reg : Reg} {b : Byte} (hreg : reg ≠ .str := by decide)
    (hb : encodeByte .standard op reg = b := by decide) : encodeByte p op reg = b := by
  cases reg with
  | str => exact absurd rfl hreg
  | mdr0 | mdr1 | dtr | cntr | otr => exact hb

/-- Settles O8: acceptance answers `ENCODE` with the byte; 0x00 has a reserved select, so no pair encodes to it. -/
theorem encodeCommandAnswers : Obligations.EncodeCommandAnswers := by
  refine ⟨fun s op reg rest hb hr => ⟨encodeByte_ne_zero s.params op reg, ?_⟩, fun p =>
    ⟨encodeByte_of_standard p, encodeByte_of_standard p, encodeByte_of_standard p, fun hc => ?_, fun hc => ?_⟩⟩
  · simp [step_idle hb, State.accept, hr, verdict, encodeByte]
  · simp [encodeByte, opByte, regByte, statusByte, hc]
  · simp [encodeByte, opByte, regByte, statusByte, hc]

/-! ### One transaction, with its next state written out -/

section transaction
variable {s : State} {c : Command} {k : Nat} {w : Option Width} {held : Option Byte}

/-- A failed transaction has reached the device or not (60_exceptions R238). -/
theorem State.landing_of_failed {e : ErrorToken} {landed : Bool} (out : List Byte)
    (hf : s.nextDraw.answer = .fail e landed) :
    s.landing out = if landed then deviceAfter s.params s.drawn s.arrival out else s.arrival := by
  simp [State.landing, hf]

theorem State.reply_of_failed {e : ErrorToken} {landed : Bool} (prim : Primitive) (out : List Byte)
    (hf : s.nextDraw.answer = .fail e landed) : s.reply prim out = .failed e := by
  simp [State.reply, hf]

theorem State.transact_failed {prim : Primitive} {out : List Byte} {e : ErrorToken} (hr : s.reply prim out = .failed e) :
    s.transact prim out = .next ((s.transacted prim out).deliver (.transportError e)) := by
  simp [State.transact, hr]

theorem State.transact_write_returned {out rx : List Byte} (hr : s.reply .write out = .returned rx) :
    s.transact .write out = .next (s.transacted .write out).afterWrite := by
  simp [State.transact, hr]

theorem State.transact_exchange_returned {out rx : List Byte} (hr : s.reply .exchange out = .returned rx)
    (hlen : rx.length = out.length) :
    s.transact .exchange out = (s.transacted .exchange out).afterRead (unBE rx.tail) := by
  simp [State.transact, hr, hlen]

theorem State.transact_exchange_mismatch {out rx : List Byte} (hr : s.reply .exchange out = .returned rx)
    (hlen : rx.length ≠ out.length) :
    s.transact .exchange out =
      .next ((s.transacted .exchange out).deliver (.lengthMismatch out.length rx.length)) := by
  simp [State.transact, hr, hlen]

/-- A transaction that ends its command. -/
theorem State.transacted_deliver (hb : s.block = .busy c k w held) (prim : Primitive) (out : List Byte) (r : Result) :
    (s.transacted prim out).deliver r = after s prim out (s.reply prim out) (s.landing out) .idle [(c, r)] := by
  simp [State.deliver, State.transacted, after, hb]

/-- A transaction after which its command goes on. -/
theorem State.transacted_advance (hb : s.block = .busy c k w held) (prim : Primitive) (out : List Byte)
    (w' : Option Width) (held' : Option Byte) :
    (s.transacted prim out).advance w' held' =
      after s prim out (s.reply prim out) (s.landing out) (.busy c (k + 1) w' held') [] := by
  simp [State.advance, State.transacted, after, hb]

/-- What a completed Write leads to: the command's end, or its next transaction. -/
theorem State.transacted_afterWrite (hb : s.block = .busy c k w held) (out : List Byte) :
    (s.transacted .write out).afterWrite =
      after s .write out (s.reply .write out) (s.landing out)
        (if k + 1 < (program c).length then .busy c (k + 1) w held else .idle)
        (if k + 1 < (program c).length then [] else [(c, .ok .unit)]) := by
  have hb' : (s.transacted .write out).block = .busy c k w held := hb
  rcases State.afterWrite_cases hb' with ⟨hk, h⟩ | ⟨hk, h⟩
  · rw [h, State.transacted_advance hb, if_pos hk, if_pos hk]
  · rw [h, State.transacted_deliver hb, if_neg hk.not_gt, if_neg hk.not_gt]

/-- The rule of a frame that goes out by a Write: the device takes the frame, and the command goes on or ends. -/
theorem writeRule_of_transact {i : Instr} {out : List Byte} (hb : s.block = .busy c k w held)
    (hx : exec i s = s.transact .write out) :
    WriteRule i s c out (deviceAfter s.params s.drawn s.arrival out)
      (if k + 1 < (program c).length then .busy c (k + 1) w held else .idle)
      (if k + 1 < (program c).length then [] else [(c, .ok .unit)]) := by
  refine ⟨fun hr => ?_, fun e landed hf => ?_⟩
  · rw [hx, State.transact_write_returned hr, State.transacted_afterWrite hb, hr, State.landing_of_returned out hr]
  · have hr := State.reply_of_failed .write out hf
    rw [hx, State.transact_failed hr, State.transacted_deliver hb, hr, State.landing_of_failed out hf]

/-- The rule of a read frame: the device keeps its registers, and a payload of the right length goes to `afterRead`. -/
theorem readRule_of_transact {i : Instr} {out : List Byte} {good : List Byte → Block × List (Command × Result)}
    (hb : s.block = .busy c k w held) (hx : exec i s = s.transact .exchange out)
    (hd : deviceAfter s.params s.drawn s.arrival out = s.arrival)
    (hgood : ∀ payload : List Byte, payload.length + 1 = out.length →
      (s.transacted .exchange out).afterRead (unBE payload) =
        .next (after s .exchange out (s.reply .exchange out) (s.landing out) (good payload).1 (good payload).2)) :
    ReadRule i s c out good := by
  have hreturned : ∀ {rx}, s.reply .exchange out = .returned rx → s.landing out = s.arrival :=
    fun hr => (State.landing_of_returned out hr).trans hd
  refine ⟨fun x payload hr hlen => ?_, fun e landed hf => ?_, fun rx hr hlen => ?_⟩
  · rw [hx, State.transact_exchange_returned hr hlen, List.tail_cons, hgood payload hlen, hr, hreturned hr]
  · have hr := State.reply_of_failed .exchange out hf
    have hland : s.landing out = s.arrival := by rw [State.landing_of_failed out hf, hd, ite_self]
    rw [hx, State.transact_failed hr, State.transacted_deliver hb, hr, hland]
  · rw [hx, State.transact_exchange_mismatch hr hlen, State.transacted_deliver hb, hr, hreturned hr]

/-! ### The frames of R86 as the current transaction -/

/-- A control frame: one byte, and the device's reaction to it (R125). -/
theorem control_writeRule {op : Op} {reg : Reg} {byte : Byte} (hop : op = .clear ∨ op = .load)
    (ha : admitted op reg = true) (hbyte : encodeByte s.params op reg = byte) (hb : s.block = .busy c k w held)
    (hc : (program c)[k]? = some (op, reg)) (hlast : (program c).length ≤ k + 1) :
    WriteRule (instrOf op reg) s c [byte]
      (afterInstr s.params s.drawn s.arrival [] (instrOf op reg)) .idle [(c, .ok .unit)] := by
  have hcur : s.current = some (op, reg) := by rw [State.current_busy hb, hc]
  have hx : exec (instrOf op reg) s = s.transact .write [encodeByte s.params op reg] := by
    rcases hop with rfl | rfl <;> simp [exec_instrOf, ha, runControl, hcur, ctrlFrame]
  have h := writeRule_of_transact hb hx
  rwa [if_neg hlast.not_gt, if_neg hlast.not_gt, deviceAfter_encodeByte, hbyte] at h

/-- A write frame: the value truncated to `n` bytes (41_codec R143), and the device's reaction to them. -/
theorem write_writeRule {reg : Reg} {n v : Nat} (ha : admitted .write reg = true) (hb : s.block = .busy c k w held)
    (hc : (program c)[k]? = some (.write, reg)) (hn : s.transferBytes reg = some n) (hv : s.writeValue = some v) :
    WriteRule (instrOf .write reg) s c (encodeByte s.params .write reg :: be (v % 2 ^ (8 * n)) n)
      (afterInstr s.params s.drawn s.arrival (be (v % 2 ^ (8 * n)) n) (instrOf .write reg))
      (if k + 1 < (program c).length then .busy c (k + 1) w held else .idle)
      (if k + 1 < (program c).length then [] else [(c, .ok .unit)]) := by
  have hcur : s.current = some (.write, reg) := by rw [State.current_busy hb, hc]
  have hx : exec (instrOf .write reg) s = s.transact .write (writeFrame s.params reg n v) := by
    simp [exec_instrOf, ha, runWrite, hcur, hn, hv]
  have h := writeRule_of_transact hb hx
  rwa [writeFrame, deviceAfter_encodeByte] at h

/-- A read frame: the byte and `n` fillers (41_codec R142). -/
theorem read_readRule {reg : Reg} {n : Nat} {good : List Byte → Block × List (Command × Result)}
    (ha : admitted .read reg = true) (hb : s.block = .busy c k w held) (hc : (program c)[k]? = some (.read, reg))
    (hn : s.transferBytes reg = some n)
    (hgood : ∀ payload : List Byte, payload.length = n →
      (s.transacted .exchange (readFrame s.params reg n)).afterRead (unBE payload) =
        .next (after s .exchange (readFrame s.params reg n) (s.reply .exchange (readFrame s.params reg n))
          (s.landing (readFrame s.params reg n)) (good payload).1 (good payload).2)) :
    ReadRule (instrOf .read reg) s c (readFrame s.params reg n) good := by
  have hcur : s.current = some (.read, reg) := by rw [State.current_busy hb, hc]
  refine readRule_of_transact hb ?_ (by simp [readFrame]) fun payload hlen => hgood payload ?_
  · simp [exec_instrOf, ha, runRead, hcur, hn]
  · simpa [readFrame] using hlen

end transaction

/-! ### CLR (R111 to R114) and LOAD (R123, R124) -/

/-- Settles O9: each is the one control frame of its `CLEAR`. -/
theorem clearFramesComplete : Obligations.ClearFramesComplete := by
  intro s w held
  refine ⟨fun hb => ?_, fun hb => ?_, fun hb => ?_, fun hb => ?_⟩
  · exact control_writeRule (.inl rfl) rfl (encodeByte_of_standard _) hb rfl le_rfl
  · exact control_writeRule (.inl rfl) rfl (encodeByte_of_standard _) hb rfl le_rfl
  · exact control_writeRule (.inl rfl) rfl (encodeByte_of_standard _) hb rfl le_rfl
  · exact control_writeRule (.inl rfl) rfl BitVec.zero_or hb rfl le_rfl

/-- Settles O10: each is a control frame and the last of its command, of `SET_COUNTS` too. -/
theorem loadFramesComplete : Obligations.LoadFramesComplete := by
  intro s w held v
  refine ⟨fun hb => ?_, fun hb => ?_, fun hb => ?_⟩
  · exact control_writeRule (.inr rfl) rfl (encodeByte_of_standard _) hb rfl le_rfl
  · exact control_writeRule (.inr rfl) rfl (encodeByte_of_standard _) hb rfl le_rfl
  · exact control_writeRule (.inr rfl) rfl (encodeByte_of_standard _) hb rfl le_rfl

/-! ### RD in `READ_REG` (R115 to R119) -/

section readReg
variable {s : State} {reg : Reg} {k : Nat} {w : Option Width} {held : Option Byte}

/-- A read of `READ_REG` that is no width query delivers its value. -/
theorem State.afterRead_readReg (hb : s.block = .busy (.readReg reg) k w held) (hquery : isWide reg = false ∨ k ≠ 0)
    (v : Nat) : s.afterRead v = .next (s.deliver (.ok (.nat v))) := by
  rcases hquery with h | h <;> simp [State.afterRead, hb, h]

/-- The register's own transaction in `READ_REG`: it delivers the unsigned value of the payload. -/
theorem readReg_readRule {n : Nat} {value : List Byte → Nat} (ha : admitted .read reg = true)
    (hb : s.block = .busy (.readReg reg) k w held) (hc : (program (.readReg reg))[k]? = some (.read, reg))
    (hquery : isWide reg = false ∨ k ≠ 0) (hn : s.transferBytes reg = some n)
    (hvalue : ∀ payload : List Byte, payload.length = n → unBE payload = value payload) :
    ReadRule (instrOf .read reg) s (.readReg reg) (readFrame s.params reg n)
      (fun rx => (.idle, [(.readReg reg, .ok (.nat (value rx)))])) := by
  refine read_readRule ha hb hc hn fun payload hlen => ?_
  rw [State.afterRead_readReg (s := s.transacted _ _) hb hquery, State.transacted_deliver hb, hvalue payload hlen]

/-- A narrow register is one byte, in the command's first transaction. -/
theorem readReg_narrow {byte : Byte} (ha : admitted .read reg = true) (hnarrow : isWide reg = false)
    (hbyte : encodeByte s.params .read reg = byte) (hb : s.block = .busy (.readReg reg) 0 w held) :
    ReadRule (instrOf .read reg) s (.readReg reg) [byte, 0x00]
      (fun rx => (.idle, [(.readReg reg, .ok (.nat (rx.headD 0).toNat))])) :=
  hbyte ▸ readReg_readRule (n := 1) ha hb (by simp [program, rawProgram, hnarrow]) (.inl hnarrow)
    (by simp [State.transferBytes, hnarrow]) fun _ hlen => headD_unBE hlen

/-- A wide register has the latched width, in the command's second transaction. -/
theorem readReg_wide {w : Width} {byte : Byte} (ha : admitted .read reg = true) (hwide : isWide reg = true)
    (hbyte : encodeByte s.params .read reg = byte) (hb : s.block = .busy (.readReg reg) 1 (some w) held) :
    ReadRule (instrOf .read reg) s (.readReg reg) (byte :: zeros (w.bits / 8))
      (fun rx => (.idle, [(.readReg reg, .ok (.nat (unBE rx)))])) :=
  hbyte ▸ readReg_readRule (n := w.bytes) ha hb (by simp [program, rawProgram, ha, hwide]) (.inr one_ne_zero)
    (by simp [State.transferBytes, hwide, State.latched, hb]) fun _ _ => rfl

end readReg

/-- Settles O11: three narrow registers. -/
theorem narrowReadsComplete : Obligations.NarrowReadsComplete :=
  fun _ _ _ => ⟨readReg_narrow (reg := .mdr0) rfl rfl (encodeByte_of_standard _),
    readReg_narrow (reg := .mdr1) rfl rfl (encodeByte_of_standard _),
    readReg_narrow (reg := .str) rfl rfl rfl⟩

/-- Settles O12: two wide registers, and `w/8` bytes are `w` bits. -/
theorem wideReadsComplete : Obligations.WideReadsComplete := by
  refine fun s w held => ⟨readReg_wide (reg := .cntr) rfl rfl (encodeByte_of_standard _),
    readReg_wide (reg := .otr) rfl rfl (encodeByte_of_standard _), fun rx hlen => ?_⟩
  have hbits : w.bits = 8 * rx.length := w.bits_eq.trans (congrArg (8 * ·) hlen.symm)
  rw [hbits]
  exact unBE_lt rx

/-! ### WR MDR0 and WR MDR1 (R120, R121) -/

/-- A narrow register takes the low byte of the operand, in the command's one transaction. -/
theorem writeReg_narrow {s : State} {reg : Reg} {v : Nat} {w : Option Width} {held : Option Byte} {byte : Byte}
    (ha : admitted .write reg = true) (hnarrow : isWide reg = false) (hbyte : encodeByte s.params .write reg = byte)
    (hb : s.block = .busy (.writeReg reg v) 0 w held) :
    WriteRule (instrOf .write reg) s (.writeReg reg v) [byte, BitVec.ofNat 8 (v % 2 ^ 8)]
      (afterInstr s.params s.drawn s.arrival [BitVec.ofNat 8 (v % 2 ^ 8)] (instrOf .write reg)) .idle
      [(.writeReg reg v, .ok .unit)] := by
  have hprogram : program (.writeReg reg v) = [(.write, reg)] := by simp [program, rawProgram, hnarrow]
  have h := write_writeRule (n := 1) (v := v) ha hb (by rw [hprogram]; rfl) (by simp [State.transferBytes, hnarrow])
    (by simp [State.writeValue, hb])
  rwa [hprogram, hbyte] at h

/-- Settles O18: two narrow registers. -/
theorem narrowWritesComplete : Obligations.NarrowWritesComplete :=
  fun _ _ _ _ => ⟨writeReg_narrow (reg := .mdr0) rfl rfl (encodeByte_of_standard _),
    writeReg_narrow (reg := .mdr1) rfl rfl (encodeByte_of_standard _)⟩

/-! ### WR DTR (R122, 41_codec R146, R153) -/

/-- The device's byte length is that of `w` exactly where its MDR1 names `w`. -/
theorem bytes_eq_deviceBytes_iff (p : Params) (d : Device) (w : Width) :
    w.bytes = deviceBytes p d ↔ queriedWidth p d.mdr1 = w :=
  (width_inj w (widthOfByte p d.mdr1)).trans eq_comm

/-- A device at the width of the frame keeps the value; at another width DTR is free (log entry 8). -/
theorem afterInstr_wrDtr_be (p : Params) (k : Nat) (d : Device) (v : Nat) (w : Width) :
    afterInstr p k d (be (v % 2 ^ w.bits) w.bytes) .wrDtr =
      { d with
        dtr := if queriedWidth p d.mdr1 = w then BitVec.ofNat 32 (v % 2 ^ w.bits) else Config.freeWord k } := by
  have hvalue : unBE (be (v % 2 ^ w.bits) w.bytes) = v % 2 ^ w.bits := by
    rw [unBE_be, ← w.bits_eq, Nat.mod_mod]
  simp [afterInstr, hvalue, bytes_eq_deviceBytes_iff]

/-- WR DTR of the value `v` at the latched width, in any command. -/
theorem wrDtr_writeRule {s : State} {c : Command} {k v : Nat} {w : Width} {held : Option Byte}
    (hb : s.block = .busy c k (some w) held) (hc : (program c)[k]? = some (.write, .dtr)) (hv : s.writeValue = some v) :
    WriteRule .wrDtr s c (0x98 :: be (v % 2 ^ w.bits) (w.bits / 8))
      { s.arrival with
        dtr :=
          if queriedWidth s.params s.arrival.mdr1 = w then BitVec.ofNat 32 (v % 2 ^ w.bits)
          else Config.freeWord s.drawn }
      (if k + 1 < (program c).length then .busy c (k + 1) (some w) held else .idle)
      (if k + 1 < (program c).length then [] else [(c, .ok .unit)]) := by
  have hn : s.transferBytes .dtr = some w.bytes := by simp [State.transferBytes, isWide, State.latched, hb]
  have h := write_writeRule (reg := .dtr) rfl hb hc hn hv
  have hbyte : encodeByte s.params .write .dtr = 0x98 := encodeByte_of_standard _
  rw [← w.bits_eq, hbyte] at h
  rw [← afterInstr_wrDtr_be]
  exact h

/-- The pattern of a signed count fits its width (41_codec R151). -/
theorem encodeSigned_mod (v : Int) (w : Width) : encodeSigned v w % 2 ^ w.bits = encodeSigned v w := by
  have hpos : (0 : Int) < 2 ^ w.bits := by positivity
  have hlt : v % 2 ^ w.bits < 2 ^ w.bits := Int.emod_lt_of_pos v hpos
  refine Nat.mod_eq_of_lt ((Int.toNat_lt' (by positivity)).2 ?_)
  exact_mod_cast hlt

/-- Settles O19: `WRITE_REG` ends with the frame; `SET_COUNTS` sends the pattern of its count and goes on to LOAD CNTR. -/
theorem dtrWritesComplete : Obligations.DtrWritesComplete := by
  refine fun s w held => ⟨fun v hb => ?_, fun v hb => ?_⟩
  · exact wrDtr_writeRule hb rfl (by simp [State.writeValue, hb])
  · have h := wrDtr_writeRule (v := encodeSigned v w) hb rfl (by simp [State.writeValue, hb])
    rwa [encodeSigned_mod] at h

/-! ### The frame of all 24 bytes (20_memory R59) -/

/-- Settles O21: a refusal and a silent channel change no more than the block and the results; a transaction changes the
device as `landing_frame` says. -/
theorem instructionFrame : Obligations.InstructionFrame := by
  intro i s t h
  rw [exec_eq i] at h
  obtain ⟨c, k, w, held, -, -, -, he⟩ := exec_frames h
  rcases he with ⟨-, rfl⟩ | ⟨-, -, rfl⟩ | ⟨ha, hs, prim, payload, b, new, hnew, -, rfl⟩
  · exact ⟨rfl, rfl, rfl, .inr ⟨_, rfl⟩, .inl ⟨rfl, rfl, rfl, rfl⟩⟩
  · exact ⟨rfl, rfl, rfl, .inl rfl, .inl ⟨rfl, rfl, rfl, rfl⟩⟩
  · have hresults : new ++ s.results = s.results ∨ ∃ r, new ++ s.results = r :: s.results := by
      rcases hnew with rfl | ⟨r, rfl, -⟩
      · exact .inl rfl
      · exact .inr ⟨_, rfl⟩
    exact ⟨rfl, rfl, rfl, hresults, .inr ⟨ha, ⟨_, rfl⟩, rfl, rfl, fun reg' hframe =>
      landing_frame s (opOf i) (regOf i) payload reg' hs hframe⟩⟩

end Sys2Proof.Machine
end

section
/-! PROOFS. The statements of 41_codec: the signed count, the width query and its width, the echo byte, and the round trip of the counts. -/

namespace Sys2Proof.Machine

open Sys2Proof.Claims

/-! ### The signed count at the configured width (R150, R151) -/

/-- `decode_signed` of a `w`-bit pattern is its two's-complement reading. -/
theorem decodeSigned_toNat {w : Width} (x : BitVec w.bits) : decodeSigned x.toNat w = x.toInt := by
  have hmsb : x.toNat.testBit (w.bits - 1) = x.msb := by rw [BitVec.msb_eq_getLsbD_last, BitVec.testBit_toNat]
  rw [decodeSigned, hmsb, BitVec.toInt_eq_msb_cond]
  norm_cast

/-- The counts that fit a width: `-2^(w-1)` to `2^(w-1)-1` (R150). -/
theorem decodeSigned_toNat_range {w : Width} (x : BitVec w.bits) :
    -(2 ^ (w.bits - 1) : Int) ≤ decodeSigned x.toNat w ∧ decodeSigned x.toNat w ≤ 2 ^ (w.bits - 1) - 1 := by
  rw [decodeSigned_toNat]
  exact ⟨BitVec.le_toInt x, Int.le_sub_one_of_lt (BitVec.toInt_lt (x := x))⟩

/-- Settles O49: a pattern below `2^w` is a `w`-bit word, and the library's `toInt` has the range. -/
theorem signedDecode : Obligations.SignedDecode := by
  intro w raw hraw
  have hx : (BitVec.ofNat w.bits raw).toNat = raw := by simpa using Nat.mod_eq_of_lt hraw
  have hdecode := decodeSigned_toNat (BitVec.ofNat w.bits raw)
  have hrange := decodeSigned_toNat_range (BitVec.ofNat w.bits raw)
  rw [hx] at hdecode hrange
  exact ⟨rfl, hdecode, hrange⟩

/-- `encode_signed` is the `w`-bit pattern of the integer. -/
theorem encodeSigned_eq_toNat (v : Int) (w : Width) : encodeSigned v w = (BitVec.ofInt w.bits v).toNat := by
  rw [encodeSigned, BitVec.toNat_ofInt]
  norm_cast

theorem encodeSigned_lt (v : Int) (w : Width) : encodeSigned v w < 2 ^ w.bits := by
  rw [encodeSigned_eq_toNat]
  exact BitVec.isLt _

/-- A count in range comes back (R151, R154). -/
theorem decodeSigned_encodeSigned {w : Width} {v : Int} (hlo : -(2 ^ (w.bits - 1) : Int) ≤ v)
    (hhi : v ≤ 2 ^ (w.bits - 1) - 1) : decodeSigned (encodeSigned v w) w = v := by
  have hpos : 0 < w.bits := by cases w <;> decide
  rw [encodeSigned_eq_toNat, decodeSigned_toNat, BitVec.toInt_ofInt_eq_self hpos hlo (Int.lt_of_le_sub_one hhi)]

/-- Counts that differ by a multiple of `2^w` have one pattern. -/
theorem encodeSigned_sub_mul (v k : Int) (w : Width) : encodeSigned (v - k * 2 ^ w.bits) w = encodeSigned v w := by
  rw [encodeSigned, Int.sub_mul_emod_self_right, encodeSigned]

theorem decodeSigned_encodeSigned_eq_sub_mul (v : Int) (w : Width) :
    ∃ k : Int, decodeSigned (encodeSigned v w) w = v - k * 2 ^ w.bits := by
  refine ⟨v.bdiv (2 ^ w.bits), ?_⟩
  rw [encodeSigned_eq_toNat, decodeSigned_toNat, BitVec.toInt_ofInt, Int.bmod_eq_self_sub_mul_bdiv, mul_comm]
  norm_cast

/-- Settles O50: the pattern is a `w`-bit word, so its reading is in range; two multiples of `2^w` that bring `v` into range
leave one pattern, so its one reading. -/
theorem signedEncode : Obligations.SignedEncode := by
  intro w v
  have hpos : (0 : Int) < 2 ^ w.bits := by positivity
  obtain ⟨k, hk⟩ := decodeSigned_encodeSigned_eq_sub_mul v w
  obtain ⟨hlo, hhi⟩ := decodeSigned_toNat_range (BitVec.ofInt w.bits v)
  rw [← encodeSigned_eq_toNat, hk] at hlo hhi
  refine ⟨Int.toNat_of_nonneg (Int.emod_nonneg v hpos.ne'), encodeSigned_lt v w, decodeSigned_encodeSigned, k, hk, hlo, hhi,
    fun k' hlo' hhi' => ?_⟩
  have hk' : v - k' * 2 ^ w.bits = v - k * 2 ^ w.bits := by
    rw [← hk, ← decodeSigned_encodeSigned hlo' hhi', encodeSigned_sub_mul]
  exact mul_right_cancel₀ hpos.ne' (sub_right_injective hk')

/-! ### The width query (R141) and the width it latches -/

/-- A wide command's first byte is the width query, and it has no other (R141, R149). -/
theorem program_of_latchesWidth {c : Command} (h : latchesWidth c = true) :
    ∃ rest, program c = (.read, .mdr1) :: rest ∧ (.read, .mdr1) ∉ rest := by
  cases c with
  | readReg reg =>
    exact ⟨[(.read, reg)], if_pos h, by rintro (_ | ⟨_, ⟨⟩⟩); cases h⟩
  | writeReg reg v => exact ⟨[(.write, reg)], if_pos h, by simp⟩
  | getCounts => exact ⟨_, rfl, by decide⟩
  | setCounts v => exact ⟨_, rfl, by decide⟩
  | encode op reg | load reg | clear reg | getField f | setField f x => cases h

/-- The value of a width query is latched. -/
theorem State.afterRead_query {s : State} {c : Command} {w : Option Width} {held : Option Byte}
    (hl : latchesWidth c = true) (hb : s.block = .busy c 0 w held) (v : Nat) : s.afterRead v = .next (s.latch v) := by
  cases c with
  | readReg reg =>
    obtain ⟨-, hwide⟩ : admitted .read reg = true ∧ isWide reg = true := by simpa [latchesWidth] using hl
    simp [State.afterRead, hb, hwide]
  | writeReg reg v' | getCounts | setCounts v' => simp [State.afterRead, hb]
  | encode op reg | load reg | clear reg | getField f | setField f x => cases hl

/-- RD MDR1 as the width query (R141). -/
theorem query_readRule {s : State} {c : Command} {w : Option Width} {held : Option Byte} (hl : latchesWidth c = true)
    (hb : s.block = .busy c 0 w held) :
    ReadRule .rdMdr1 s c (readFrame s.params .mdr1 1)
      (fun rx => (.busy c 1 (some (queriedWidth s.params (rx.headD 0))) none, [])) := by
  obtain ⟨rest, hprogram, -⟩ := program_of_latchesWidth hl
  refine read_readRule (reg := .mdr1) rfl hb (by rw [hprogram]; rfl) rfl fun payload hlen => ?_
  rw [State.afterRead_query hl (s := s.transacted _ _) hb, State.latch, State.transacted_advance hb, headD_unBE hlen,
    BitVec.ofNat_toNat, BitVec.setWidth_eq]
  rfl

theorem readFrame_mdr1 (p : Params) : readFrame p .mdr1 1 = [0x50, 0x00] :=
  congrArg (· :: [0x00]) (encodeByte_of_standard p)

/-- Settles O14: the byte that is read is latched by every command that queries the width. -/
theorem widthQueryLatches : Obligations.WidthQueryLatches := by
  intro s c w held hl hb
  rw [← readFrame_mdr1 s.params]
  exact query_readRule hl hb

/-- A command that passes its checks enters `Busy` at its first transaction (10_state R22). -/
theorem step_accept {s : State} {c : Command} {rest : List Command} (hb : s.block = .idle) (hr : s.requests = c :: rest)
    (hv : verdict s.params c = none) : step s = .next { s with block := .busy c 0 none none, requests := rest } := by
  obtain ⟨haccept, -, -⟩ := idleAccepts s c rest hb hr
  exact haccept hv

/-- Settles O34: acceptance latches nothing and the query is the first byte; a width is latched only past it, where the program
has no query and `step_forms` keeps the width. -/
theorem widthLatchedOnce : Obligations.WidthLatchedOnce := by
  refine ⟨fun s c rest hb hr hl hv => ?_, fun s c k w held hi hb => ?_⟩
  · obtain ⟨more, hprogram, -⟩ := program_of_latchesWidth hl
    exact ⟨_, step_accept hb hr hv, by rw [State.current_busy rfl, hprogram]; rfl, rfl, rfl⟩
  · obtain ⟨-, -, hw, -⟩ := ready_of_inv hi hb
    obtain ⟨hl, hk⟩ : latchesWidth c = true ∧ k ≠ 0 := by simpa using hw
    obtain ⟨j, rfl⟩ := Nat.exists_eq_succ_of_ne_zero hk
    obtain ⟨more, hprogram, honce⟩ := program_of_latchesWidth hl
    refine ⟨fun hc => honce ?_, fun t ht => ?_⟩
    · rw [State.current_busy hb, hprogram, List.getElem?_cons_succ] at hc
      exact List.mem_of_getElem? hc
    · rcases step_forms hi hb ht with rfl | ⟨hidle, -⟩ | ⟨-, -, ⟨h0, -⟩ | ⟨h0, -⟩ | ⟨-, hbusy⟩⟩
      · exact .inr (.inl rfl)
      · exact .inl hidle
      · exact absurd h0 hk
      · exact absurd h0 hk
      · exact .inr (.inr ⟨held, hbusy⟩)

/-! ### `GET_COUNTS` (R152) -/

/-- The counter's value is delivered with its sign at the latched width. -/
theorem State.afterRead_getCounts {s : State} {w : Width} {held : Option Byte}
    (hb : s.block = .busy .getCounts 1 (some w) held) (v : Nat) :
    s.afterRead v = .next (s.deliver (.ok (.int (decodeSigned v w)))) := by
  simp [State.afterRead, hb]

/-- RD CNTR in `GET_COUNTS`, at the latched width (R152). -/
theorem getCounts_readRule {s : State} {w : Width} {held : Option Byte} (hb : s.block = .busy .getCounts 1 (some w) held) :
    ReadRule .rdCntr s .getCounts (readFrame s.params .cntr w.bytes)
      (fun rx => (.idle, [(.getCounts, .ok (.int (decodeSigned (unBE rx) w)))])) := by
  have hn : s.transferBytes .cntr = some w.bytes := by simp [State.transferBytes, isWide, State.latched, hb]
  refine read_readRule rfl hb rfl hn fun payload _ => ?_
  rw [State.afterRead_getCounts (s := s.transacted _ _) hb, State.transacted_deliver hb]

theorem readFrame_cntr (p : Params) (w : Width) : readFrame p .cntr w.bytes = 0x60 :: zeros (w.bits / 8) :=
  congrArg (· :: zeros w.bytes) (encodeByte_of_standard p)

/-- Settles O13: `decode_signed` at the latched width is the statement's case form. -/
theorem getCountsDecodes : Obligations.GetCountsDecodes := by
  intro s w held hb
  rw [← readFrame_cntr s.params]
  exact getCounts_readRule hb

section rules
variable {i : Instr} {s : State} {c : Command} {k : Nat} {w : Option Width} {held : Option Byte} {out : List Byte}

/-- The step of a read frame that is answered in full. -/
theorem step_of_readRule {good : List Byte → Block × List (Command × Result)} {x : Byte} {payload : List Byte}
    (h : ReadRule i s c out good) (hb : s.block = .busy c k w held) (hc : (program c)[k]? = some (opOf i, regOf i))
    (hr : s.reply .exchange out = .returned (x :: payload)) (hlen : payload.length + 1 = out.length) :
    step s = .next
      (after s .exchange out (.returned (x :: payload)) s.arrival (good payload).1 (good payload).2) := by
  obtain ⟨hreturned, -, -⟩ := h
  exact step_after (hreturned x payload hr hlen) hb hc

/-- The step of a write or control frame that completes. -/
theorem step_of_writeRule {d : Device} {b : Block} {new : List (Command × Result)} (h : WriteRule i s c out d b new)
    (hb : s.block = .busy c k w held) (hc : (program c)[k]? = some (opOf i, regOf i))
    (hr : s.reply .write out = .returned []) : step s = .next (after s .write out (.returned []) d b new) := by
  obtain ⟨hcompleted, -⟩ := h
  exact step_after (hcompleted hr) hb hc

/-- The step of a width query that is answered with one byte. -/
theorem step_query {x b : Byte} (hl : latchesWidth c = true) (hb : s.block = .busy c 0 w held)
    (hr : s.reply .exchange [0x50, 0x00] = .returned [x, b]) :
    step s = .next
      (after s .exchange [0x50, 0x00] (.returned [x, b]) s.arrival
        (.busy c 1 (some (queriedWidth s.params b)) none) []) := by
  obtain ⟨rest, hprogram, -⟩ := program_of_latchesWidth hl
  exact step_of_readRule (widthQueryLatches s c w held hl hb) hb (by rw [hprogram]; rfl) hr rfl

end rules

/-- Settles O28: acceptance, the width query, and the read at its width, each by its rule. -/
theorem getCountsRuns : Obligations.GetCountsRuns := by
  intro s rest ch ch' x y b rx env hb hr henv hlen
  obtain ⟨params, block, requests, results, bus, env', world, dev, drawn⟩ := s
  dsimp only at hb hr henv hlen
  subst hb hr henv
  rw [steps_succ (step_accept rfl rfl rfl), steps_succ (step_query rfl rfl rfl),
    steps_succ (step_of_readRule (getCountsDecodes _ _ _ rfl) rfl rfl rfl (by simp [hlen]))]
  rfl

/-! ### `SET_COUNTS` (R153) -/

/-- WR DTR in `SET_COUNTS`: the pattern of the count at the latched width. -/
theorem setCounts_wrDtr_writeRule {s : State} {v : Int} {w : Width} {held : Option Byte}
    (hb : s.block = .busy (.setCounts v) 1 (some w) held) :
    WriteRule .wrDtr s (.setCounts v) (0x98 :: be (encodeSigned v w) (w.bits / 8))
      { s.arrival with
        dtr := if queriedWidth s.params s.arrival.mdr1 = w then BitVec.ofNat 32 (encodeSigned v w)
          else Config.freeWord s.drawn }
      (.busy (.setCounts v) 2 (some w) held) [] := by
  obtain ⟨-, hrule⟩ := dtrWritesComplete s w held
  exact hrule v hb

/-- LOAD CNTR, the last transaction of `SET_COUNTS`. -/
theorem setCounts_load_writeRule {s : State} {v : Int} {w : Option Width} {held : Option Byte}
    (hb : s.block = .busy (.setCounts v) 2 w held) :
    WriteRule .loadCntr s (.setCounts v) [0xE0] { s.arrival with cntr := s.arrival.dtr } .idle
      [(.setCounts v, .ok .unit)] := by
  obtain ⟨-, hrule, -⟩ := loadFramesComplete s w held v
  exact hrule hb

/-- Settles O29: acceptance, the width query, WR DTR to a device at the width answered, and LOAD CNTR, each by its rule. -/
theorem setCountsRuns : Obligations.SetCountsRuns := by
  intro s v rest x b e e' env hb hr henv hw
  obtain ⟨params, block, requests, results, bus, env', world, dev, drawn⟩ := s
  dsimp only at hb hr henv hw ⊢
  subst hb hr henv
  rw [steps_succ (step_accept rfl rfl rfl), steps_succ (step_query rfl rfl rfl),
    steps_succ (step_of_writeRule (setCounts_wrDtr_writeRule rfl) rfl rfl rfl),
    steps_succ (step_of_writeRule (setCounts_load_writeRule rfl) rfl rfl rfl)]
  simp [after, steps, State.arrival, State.nextDraw, applyChange, hw, encodeSigned]

/-! ### The echo byte (R142) -/

/-- What follows a read does not depend on what the bus lists (10_state R20). -/
theorem State.afterRead_with_bus {s t : State} {v : Nat} (h : s.afterRead v = .next t) (bus : List Transaction) :
    ∃ bus', State.afterRead { s with bus := bus } v = .next { t with bus := bus' } := by
  have hbus : ∀ bus, { s with bus := bus } = State.withHistory [] bus { s with bus := [] } := by
    simp [State.withHistory]
  rw [show s = State.withHistory [] s.bus { s with bus := [] } from hbus s.bus, State.withHistory_afterRead] at h
  rw [hbus, State.withHistory_afterRead]
  cases hu : State.afterRead { s with bus := [] } v with
  | next u => rw [hu] at h; cases h; exact ⟨_, rfl⟩
  | fault r | refused r => rw [hu] at h; cases h

/-- `s` with the echo byte `x` in front of the payload that answers the coming transaction. -/
def State.withEcho (ch : DevChange) (rx : List Byte) (env : List Draw) (s : State) (x : Byte) : State :=
  { s with env := { change := ch, answer := .respond (x :: rx) } :: env }

section echo
variable {s t : State} {ch : DevChange} {x : Byte} {rx : List Byte} {env : List Draw}

/-- The echo byte of a transaction goes to the bus and to nothing else. -/
theorem State.transact_withEcho {prim : Primitive} {out : List Byte}
    (h : (s.withEcho ch rx env x).transact prim out = .next t) (y : Byte) :
    ∃ bus, (s.withEcho ch rx env y).transact prim out = .next { t with bus := bus } := by
  cases prim with
  | write => exact ⟨_, h⟩ -- a Write returns no bytes, so both states answer the same
  | exchange =>
    have hr : ∀ z, (s.withEcho ch rx env z).reply .exchange out = .returned (z :: rx) := fun _ => rfl
    by_cases hlen : rx.length + 1 = out.length
    · rw [State.transact_exchange_returned (hr x) hlen] at h
      rw [State.transact_exchange_returned (hr y) hlen]
      exact State.afterRead_with_bus h _
    · rw [State.transact_exchange_mismatch (hr x) hlen] at h
      rw [State.transact_exchange_mismatch (hr y) hlen]
      cases h
      exact ⟨_, rfl⟩

@[simp] theorem State.withEcho_params : (s.withEcho ch rx env x).params = s.params := rfl
@[simp] theorem State.withEcho_current : (s.withEcho ch rx env x).current = s.current := rfl
@[simp] theorem State.withEcho_transferBytes (reg : Reg) :
    (s.withEcho ch rx env x).transferBytes reg = s.transferBytes reg := rfl
@[simp] theorem State.withEcho_writeValue : (s.withEcho ch rx env x).writeValue = s.writeValue := rfl

/-- The echo byte of an instruction goes to the bus and to nothing else: its frame comes from the block and the
parameters alone. A refusal leaves the answer waiting in `env`. -/
theorem exec_withEcho {op : Op} {reg : Reg} (h : exec (instrOf op reg) (s.withEcho ch rx env x) = .next t) (y : Byte) :
    ∃ bus env', exec (instrOf op reg) (s.withEcho ch rx env y) = .next { t with bus := bus, env := env' } := by
  obtain ⟨hcur, ⟨ha, rfl⟩ | ⟨ha, rfl, n, hn, h⟩ | ⟨ha, rfl, n, v, hn, hv, h⟩ | ⟨ha, hop, h⟩⟩ := exec_cases h
  all_goals rw [State.withEcho_current] at hcur
  · exact ⟨_, _, by simp [exec_instrOf, ha, refusePair, hcur]; rfl⟩
  · obtain ⟨bus, h⟩ := State.transact_withEcho h y
    rw [State.withEcho_transferBytes] at hn
    exact ⟨bus, t.env, by simpa [exec_instrOf, ha, runRead, hcur, hn] using h⟩
  · obtain ⟨bus, h⟩ := State.transact_withEcho h y
    rw [State.withEcho_transferBytes] at hn
    rw [State.withEcho_writeValue] at hv
    exact ⟨bus, t.env, by simpa [exec_instrOf, ha, runWrite, hcur, hn, hv] using h⟩
  · obtain ⟨bus, h⟩ := State.transact_withEcho h y
    exact ⟨bus, t.env, by rcases hop with rfl | rfl <;> simpa [exec_instrOf, ha, runControl, hcur] using h⟩

end echo

/-- Settles O45: a step of a busy block is one instruction, and `exec_withEcho` says where its echo byte goes. -/
theorem echoIsIgnored : Obligations.EchoIsIgnored := by
  intro s t ch x y rx env henv hbusy h
  have hs : s = s.withEcho ch rx env x := by rw [State.withEcho, ← henv]
  rcases step_cases h with ⟨hidle, -⟩ | ⟨c, k, w, held, op, reg, hb, hc, he⟩
  · exact absurd hidle hbusy
  · rw [hs] at he
    obtain ⟨bus, env', he⟩ := exec_withEcho he y
    exact ⟨_, (step_busy (s := s.withEcho ch rx env y) hb hc).trans he, rfl, rfl, rfl, rfl⟩

/-! ### The round trip of the counts (R154) -/

/-- A code written into its field is read back from it (42_mode_fields R182, R183). -/
theorem fieldCode_mergeField {p : Params} {f : Field} {c : Nat} (hp : p.legal = true) (hc : c ≤ fieldMask f) (b : Byte) :
    fieldCode p f (mergeField p f c b) = c := by
  have hfits := legal_fits hp f
  refine Nat.eq_of_testBit_eq fun i => ?_
  rw [fieldCode, BitVec.testBit_toNat, BitVec.getLsbD_and, mask_bit, BitVec.getLsbD_ushiftRight, mergeField,
    BitVec.getLsbD_or, BitVec.getLsbD_and, BitVec.getLsbD_not, placedMask, BitVec.getLsbD_shiftLeft, mask_bit,
    BitVec.getLsbD_shiftLeft, BitVec.getLsbD_ofNat]
  by_cases hi : i < fieldWidth f
  · have hlt : shiftOf p.layout f + i < 8 := by omega
    have hlt' : i < 8 := by omega
    simp [hi, hlt, hlt']
  · simp [hi, code_bit hc (not_lt.1 hi)]

/-! #### Commands with the reference device alone on the channel -/

/-- `n` steps from `s` to `t`, with the reference device alone on the channel before and after: the block is now `b`, these commands
wait, `new` has been delivered, the device's registers are `d`. -/
structure CalmSteps (n : Nat) (s t : State) (b : Block) (requests : List Command) (new : List (Command × Result))
    (d : Device) : Prop where
  run : steps n s = .next t
  calm : t.Calm
  params : t.params = s.params
  block : t.block = b
  requests : t.requests = requests
  results : t.results = new ++ s.results
  dev : t.dev = d

section calm
variable {s t u : State} {c : Command} {k m n : Nat} {w : Option Width} {held : Option Byte} {i : Instr} {out : List Byte}
  {b b' : Block} {requests requests' rest : List Command} {new new' : List (Command × Result)} {d d' : Device}

theorem CalmSteps.trans (h : CalmSteps m s t b requests new d) (h' : CalmSteps n t u b' requests' new' d') :
    CalmSteps (m + n) s u b' requests' (new' ++ new) d' where
  run := (steps_add m n s t h.run).trans h'.run
  calm := h'.calm
  params := h'.params.trans h.params
  block := h'.block
  requests := h'.requests
  results := by rw [h'.results, h.results, List.append_assoc]
  dev := h'.dev

/-- One transaction of the reference device. -/
theorem CalmSteps.of_after {prim : Primitive} {reply : Reply} (hs : s.Calm)
    (h : step s = .next (after s prim out reply d b new)) :
    CalmSteps 1 s (after s prim out reply d b new) b s.requests new d where
  run := steps_succ h
  calm := ⟨hs.1, fun x hx => hs.2 x (List.mem_of_mem_tail hx)⟩
  params := rfl
  block := rfl
  requests := rfl
  results := rfl
  dev := rfl

theorem calm_accept (hs : s.Calm) (hb : s.block = .idle) (hr : s.requests = c :: rest)
    (hv : verdict s.params c = none) : ∃ t, CalmSteps 1 s t (.busy c 0 none none) rest [] s.dev :=
  ⟨_, steps_succ (step_accept hb hr hv), hs, rfl, rfl, rfl, rfl, rfl⟩

/-- The reference device completes a Write. -/
theorem calm_writeRule (hs : s.Calm) (hb : s.block = .busy c k w held)
    (hc : (program c)[k]? = some (opOf i, regOf i)) (h : WriteRule i s c out d b new) :
    ∃ t, CalmSteps 1 s t b s.requests new d :=
  ⟨_, .of_after hs (step_of_writeRule h hb hc (calm_write hs out))⟩

/-- The reference device answers a read frame of the right length with the register. -/
theorem calm_readRule {reg : Reg} {payload : List Byte} {good : List Byte → Block × List (Command × Result)} (hs : s.Calm)
    (hb : s.block = .busy c k w held) (hc : (program c)[k]? = some (.read, reg))
    (h : ReadRule (instrOf .read reg) s c (readFrame s.params reg n) good)
    (hpayload : responseTo s.params s.drawn s.dev (zeros n) (instrOf .read reg) = payload)
    (hlen : payload.length = n) :
    ∃ t, CalmSteps 1 s t (good payload).1 s.requests (good payload).2 s.dev := by
  obtain ⟨e, hr⟩ := calm_read hs reg n
  rw [hpayload] at hr
  have hstep := step_of_readRule h hb (by simpa using hc) hr (by simp [readFrame, hlen])
  rw [calm_arrival hs] at hstep
  exact ⟨_, .of_after hs hstep⟩

/-! #### `SET_FIELD`, `SET_COUNTS` and `GET_COUNTS` -/

/-- The holder's byte is held. -/
theorem State.afterRead_setField {f : Field} {x : Logical} (hb : s.block = .busy (.setField f x) k w held) (v : Nat) :
    s.afterRead v = .next (s.advance none (some (BitVec.ofNat 8 v))) := by
  simp [State.afterRead, hb]

/-- RD of the holder in `SET_FIELD`: the byte is held for the merge (42_mode_fields R183). -/
theorem setField_readRule {f : Field} {x : Logical} (hb : s.block = .busy (.setField f x) 0 w held) :
    ReadRule (instrOf .read (holder f)) s (.setField f x) (readFrame s.params (holder f) 1)
      (fun rx => (.busy (.setField f x) 1 none (some (rx.headD 0)), [])) := by
  have ha : admitted .read (holder f) = true := by cases f <;> rfl
  have hn : s.transferBytes (holder f) = some 1 := by cases f <;> rfl
  refine read_readRule ha hb rfl hn fun payload hlen => ?_
  rw [State.afterRead_setField (s := s.transacted _ _) hb, State.transacted_advance hb, headD_unBE hlen,
    BitVec.ofNat_toNat, BitVec.setWidth_eq]

/-- WR MDR1 in `SET_FIELD(bits, x)`, with the merged byte (42_mode_fields R183, R195). -/
theorem setBits_writeRule {x : Logical} {code : Nat} {byte : Byte} (hcode : codeOf s.params .bits x = some code)
    (hb : s.block = .busy (.setField .bits x) 1 w (some byte)) :
    WriteRule .wrMdr1 s (.setField .bits x) [encodeByte s.params .write .mdr1, mergeField s.params .bits code byte]
      { s.arrival with mdr1 := mergeField s.params .bits code byte } .idle [(.setField .bits x, .ok .unit)] := by
  have hone : ∀ y : Byte, be (y.toNat % 2 ^ (8 * 1)) 1 = [y] := by
    intro y; simp [be, Nat.mod_eq_of_lt y.isLt]
  have h := write_writeRule (reg := .mdr1) (n := 1) (v := (mergeField s.params .bits code byte).toNat) rfl hb rfl rfl
    (by simp [State.writeValue, hb, hcode])
  rwa [hone] at h

theorem responseTo_rdMdr1 (p : Params) (k : Nat) (d : Device) : responseTo p k d (zeros 1) .rdMdr1 = [d.mdr1] := by
  simp [responseTo, answerIf]

theorem widthOf_bijective_of_legal {p : Params} (h : p.legal = true) : p.widthOf.bijective = true := by
  simp only [Params.legal, Bool.and_eq_true] at h
  obtain ⟨⟨⟨hbij, -⟩, -⟩, -⟩ := h
  exact hbij

/-- The merged byte of a width's code names that width (42_mode_fields R195). -/
theorem queriedWidth_mergeField {p : Params} (hp : p.legal = true) (width : Width) (byte : Byte) :
    queriedWidth p (mergeField p .bits (codeOfWidth p.widthOf width) byte) = width := by
  have hle : codeOfWidth p.widthOf width ≤ fieldMask .bits := Nat.le_of_lt_succ (codeOfWidth_lt _ _)
  have hcode := fieldCode_mergeField hp hle byte
  exact (congrArg (widthOfCode p.widthOf) hcode).trans ((width_code (widthOf_bijective_of_legal hp)).2 width)

theorem codeOf_bits {p : Params} (hp : p.legal = true) (width : Width) :
    codeOf p .bits (.int width.bits) = some (codeOfWidth p.widthOf width) := by
  have hw := widthOf_bijective_of_legal hp
  rw [← logicalOf_codeOfWidth hw, codeOf_logicalOf hw (Nat.le_of_lt_succ (codeOfWidth_lt _ _))]

/-- `SET_FIELD(bits, w)`: MDR1 names the width `w` afterwards. -/
theorem calm_setBits {width : Width} (hp : s.params.legal = true) (hs : s.Calm) (hb : s.block = .idle)
    (hr : s.requests = .setField .bits (.int width.bits) :: rest) :
    ∃ t byte, CalmSteps 3 s t .idle rest [(.setField .bits (.int width.bits), .ok .unit)] { s.dev with mdr1 := byte } ∧
      queriedWidth s.params byte = width := by
  have hcode := codeOf_bits hp width
  have hv : verdict s.params (.setField .bits (.int width.bits)) = none := by simp [verdict, hcode]; rfl
  obtain ⟨t, ht⟩ := calm_accept hs hb hr hv
  obtain ⟨u, hu⟩ := calm_readRule ht.calm ht.block rfl (setField_readRule ht.block) (responseTo_rdMdr1 _ _ _) rfl
  obtain ⟨v, hv⟩ := calm_writeRule hu.calm hu.block rfl (setBits_writeRule (by rw [hu.params, ht.params, hcode]) hu.block)
  have h := (ht.trans hu).trans hv
  rw [calm_arrival hu.calm, hu.dev, hu.requests, ht.requests, hu.params, ht.params, ht.dev] at h
  exact ⟨v, _, h, queriedWidth_mergeField hp width _⟩

/-- The width query finds the width of the device. -/
theorem calm_query (hs : s.Calm) (hl : latchesWidth c = true) (hb : s.block = .busy c 0 w held) :
    ∃ t, CalmSteps 1 s t (.busy c 1 (some (queriedWidth s.params s.dev.mdr1)) none) s.requests [] s.dev := by
  obtain ⟨more, hprogram, -⟩ := program_of_latchesWidth hl
  exact calm_readRule (reg := .mdr1) (payload := [s.dev.mdr1]) hs hb (by rw [hprogram]; rfl) (query_readRule hl hb)
    (responseTo_rdMdr1 _ _ _) rfl

/-- `SET_COUNTS(v)`: DTR and CNTR hold the pattern of `v` at the device's width (R153). -/
theorem calm_setCounts {v : Int} {width : Width} (hs : s.Calm) (hb : s.block = .idle)
    (hr : s.requests = .setCounts v :: rest) (hw : queriedWidth s.params s.dev.mdr1 = width) :
    ∃ t, CalmSteps 4 s t .idle rest [(.setCounts v, .ok .unit)]
      { s.dev with dtr := BitVec.ofNat 32 (encodeSigned v width), cntr := BitVec.ofNat 32 (encodeSigned v width) } := by
  obtain ⟨t₁, h₁⟩ := calm_accept hs hb hr rfl
  obtain ⟨t₂, h₂⟩ := calm_query h₁.calm rfl h₁.block
  obtain ⟨t₃, h₃⟩ := calm_writeRule h₂.calm h₂.block rfl (setCounts_wrDtr_writeRule h₂.block)
  obtain ⟨t₄, h₄⟩ := calm_writeRule h₃.calm h₃.block rfl (setCounts_load_writeRule h₃.block)
  have h := ((h₁.trans h₂).trans h₃).trans h₄
  simp only [calm_arrival h₃.calm, h₃.dev, calm_arrival h₂.calm, h₂.dev, h₁.dev, h₂.params, h₁.params, hw, h₃.requests,
    h₂.requests, h₁.requests] at h
  exact ⟨t₄, h⟩

/-- The response to RD CNTR, for a device whose CNTR holds a pattern of its width, is the bytes of that pattern. -/
theorem responseTo_rdCntr {p : Params} {d : Device} {width : Width} {raw : Nat} (k : Nat) (hraw : raw < 2 ^ width.bits)
    (hcntr : d.cntr = BitVec.ofNat 32 raw) (hw : queriedWidth p d.mdr1 = width) :
    responseTo p k d (zeros width.bytes) .rdCntr = be raw width.bytes := by
  have hbytes : deviceBytes p d = width.bytes := ((bytes_eq_deviceBytes_iff p d width).2 hw).symm
  have hword : raw < 2 ^ 32 := hraw.trans_le (Nat.pow_le_pow_right two_pos (by cases width <;> decide))
  have hvalue : d.cntr.toNat % 2 ^ width.bits = raw := by
    rw [hcntr, BitVec.toNat_ofNat, Nat.mod_eq_of_lt hword, Nat.mod_eq_of_lt hraw]
  simp [responseTo, answerIf, hbytes, ← Width.bits_eq, hvalue]

/-- `GET_COUNTS`: CNTR is read at the device's width, and its sign decoded at that width (R152). -/
theorem calm_getCounts {width : Width} {raw : Nat} (hs : s.Calm) (hb : s.block = .idle)
    (hr : s.requests = .getCounts :: rest) (hw : queriedWidth s.params s.dev.mdr1 = width) (hraw : raw < 2 ^ width.bits)
    (hcntr : s.dev.cntr = BitVec.ofNat 32 raw) :
    ∃ t, CalmSteps 3 s t .idle rest [(.getCounts, .ok (.int (decodeSigned raw width)))] s.dev := by
  obtain ⟨t₁, h₁⟩ := calm_accept hs hb hr rfl
  obtain ⟨t₂, h₂⟩ := calm_query h₁.calm rfl h₁.block
  have hblock : t₂.block = .busy .getCounts 1 (some width) none := by rw [h₂.block, h₁.params, h₁.dev, hw]
  have hdev : t₂.dev = s.dev := h₂.dev.trans h₁.dev
  have hparams : t₂.params = s.params := h₂.params.trans h₁.params
  obtain ⟨t₃, h₃⟩ := calm_readRule (reg := .cntr) h₂.calm hblock rfl (getCounts_readRule hblock)
    (responseTo_rdCntr _ hraw (by rw [hdev, hcntr]) (by rw [hdev, hparams, hw])) (length_be _ _)
  have h := (h₁.trans h₂).trans h₃
  rw [unBE_be, ← Width.bits_eq, Nat.mod_eq_of_lt hraw, hdev, h₂.requests, h₁.requests] at h
  exact ⟨t₃, h⟩

end calm

/-- Settles O51: `SET_FIELD` sets the device's width, `SET_COUNTS` leaves the pattern of `v` at it in CNTR, `GET_COUNTS` reads that
pattern back, and decoding it gives `v` since `v` is in range. -/
theorem countsRoundTrip : Obligations.CountsRoundTrip := by
  intro s w v rest hi hs hb hr hlo hhi
  obtain ⟨hp, -⟩ := hi
  obtain ⟨t₁, byte, h₁, hbyte⟩ := calm_setBits hp hs hb hr
  have hw₁ : queriedWidth t₁.params t₁.dev.mdr1 = w := by rw [h₁.params, h₁.dev, hbyte]
  obtain ⟨t₂, h₂⟩ := calm_setCounts h₁.calm h₁.block h₁.requests hw₁
  have hw₂ : queriedWidth t₂.params t₂.dev.mdr1 = w := by rw [h₂.params, h₂.dev, hw₁]
  obtain ⟨t₃, h₃⟩ := calm_getCounts h₂.calm h₂.block h₂.requests hw₂ (encodeSigned_lt v w)
    (by rw [h₂.dev])
  rw [decodeSigned_encodeSigned hlo hhi] at h₃
  have h := (h₁.trans h₂).trans h₃
  exact ⟨t₃, h.run, h.block, h.requests, h.results⟩

end Sys2Proof.Machine
end

section
/-! PROOFS. The statements of 42_mode_fields: the checks of `SET_FIELD`, the two frames of a read-modify-write and the one of `GET_FIELD`,
the isolation law with its masks, the status flags, and the get-after-set law. -/

namespace Sys2Proof.Machine

open Sys2Proof.Claims

/-! ### Checks before any transaction (R181) -/

section checks
variable {p : Params} {f : Field} {x : Logical}

/-- A status field is refused whatever the operand. -/
theorem verdict_setField_readOnly (hf : holder f = .str) :
    verdict p (.setField f x) = some (.refused (.readOnlyField f)) := by
  simp [verdict, readOnly, hf]

theorem verdict_setField_outside (hf : holder f ≠ .str) (hx : x ∉ domain p f) :
    verdict p (.setField f x) = some (.invalidArgument f (domain p f)) := by
  simp [verdict, readOnly, hf, lookup_none.2 hx]

theorem verdict_setField_code {code : Nat} (hf : holder f ≠ .str) (hx : codeOf p f x = some code) :
    verdict p (.setField f x) = none := by
  simp [verdict, readOnly, hf, hx]

end checks

/-- A command that the checks end is answered at once. -/
theorem step_answer {s : State} {c : Command} {rest : List Command} {r : Result} (hb : s.block = .idle)
    (hr : s.requests = c :: rest) (hv : verdict s.params c = some r) :
    step s = .next { s with requests := rest, results := (c, r) :: s.results } := by
  obtain ⟨-, hanswer, -⟩ := idleAccepts s c rest hb hr
  exact hanswer r hv

/-- Settles O26: acceptance goes by `verdict`, whose cases these are. -/
theorem setFieldChecksFirst : Obligations.SetFieldChecksFirst := by
  refine fun s f rest hb => ⟨fun x hr => ⟨fun hf => ?_, fun hf hx => ?_, fun hf hx => ?_⟩, fun hr => ?_⟩
  · exact step_answer hb hr (verdict_setField_readOnly hf)
  · exact step_answer hb hr (verdict_setField_outside hf hx)
  · obtain ⟨code, hcode⟩ := mem_domain_iff.1 hx
    exact step_accept hb hr (verdict_setField_code hf hcode)
  · exact step_accept hb hr rfl

/-! ### The frames of the holder (R182, R183) -/

section frames
variable {s : State} {f : Field} {k : Nat} {w : Option Width} {held : Option Byte}

theorem admitted_read_holder (f : Field) : admitted .read (holder f) = true := by cases f <;> rfl

/-- Every holder is a register of one byte. -/
theorem State.transferBytes_holder (s : State) (f : Field) : s.transferBytes (holder f) = some 1 := by cases f <;> rfl

/-- A field that can be set is held by a mode register. -/
theorem holder_of_writable (hf : readOnly f = false) : holder f = .mdr0 ∨ holder f = .mdr1 := by
  cases f with
  | quadrature | countMode | indexMode | indexSync | filterDiv => exact .inl rfl
  | bits | enabled | flagSources => exact .inr rfl
  | sign | direction | powerLoss | countEnableEcho | indexLatch | compareLatch | borrowLatch | carryLatch => cases hf

theorem holder_ne_str (hf : readOnly f = false) : holder f ≠ .str := of_decide_eq_false hf

theorem admitted_write_holder (hf : readOnly f = false) : admitted .write (holder f) = true := by
  rcases holder_of_writable hf with h | h <;> rw [h] <;> rfl

/-- A one-byte WR of the holder sets it and no other register. -/
theorem afterInstr_write_holder (p : Params) (k : Nat) (d : Device) (hf : readOnly f = false) (b : Byte) :
    afterInstr p k d [b] (instrOf .write (holder f)) = withHolder f b d := by
  rcases holder_of_writable hf with h | h <;> rw [withHolder, h] <;> rfl

/-- `GET_FIELD` delivers the field's value. -/
theorem State.afterRead_getField (hb : s.block = .busy (.getField f) k w held) (v : Nat) :
    s.afterRead v = .next (s.deliver (.ok (.logical (fieldValue s.params f (BitVec.ofNat 8 v))))) := by
  simp [State.afterRead, hb]

/-- RD of the holder in `GET_FIELD` (R182). -/
theorem getField_readRule (hb : s.block = .busy (.getField f) 0 w held) :
    ReadRule (instrOf .read (holder f)) s (.getField f) (readFrame s.params (holder f) 1)
      (fun rx => (.idle, [(.getField f, .ok (.logical (fieldValue s.params f (rx.headD 0))))])) := by
  refine read_readRule (admitted_read_holder f) hb rfl (s.transferBytes_holder f) fun payload hlen => ?_
  rw [State.afterRead_getField (s := s.transacted _ _) hb, State.transacted_deliver hb, headD_unBE hlen,
    BitVec.ofNat_toNat, BitVec.setWidth_eq, State.transacted_params]

/-- One byte goes out as itself. -/
theorem be_toNat_mod (b : Byte) : be (b.toNat % 2 ^ (8 * 1)) 1 = [b] := by
  simp [be, Nat.mod_eq_of_lt b.isLt]

end frames

/-- Settles O15: the value of a field is `logical` of its code in the byte. -/
theorem getFieldExtracts : Obligations.GetFieldExtracts :=
  fun _ _ _ _ hb => getField_readRule hb

/-- Settles O16: the read frame of the holder is its byte and one filler. -/
theorem setFieldHolds : Obligations.SetFieldHolds :=
  fun _ _ _ _ _ hb => setField_readRule hb

/-- Settles O17: the value of the write frame is the merged byte, and the holder takes it. -/
theorem setFieldWritesMerged : Obligations.SetFieldWritesMerged := by
  intro s f x w b code hb hf hcode
  have h := write_writeRule (v := (mergeField s.params f code b).toNat) (admitted_write_holder hf) hb rfl
    (s.transferBytes_holder f) (by simp [State.writeValue, hb, hcode])
  rwa [be_toNat_mod, afterInstr_write_holder _ _ _ hf] at h

/-- Settles O35: the completed write puts the merged byte of the held one into the holder, in whatever the other agent left. -/
theorem interleavedWriteIsLost : Obligations.InterleavedWriteIsLost := by
  intro s f x w b echo code d env hb hf hcode henv
  have hdraw : s.nextDraw = { change := .foreign d, answer := .device echo } := by simp [State.nextDraw, henv]
  have harrival : s.arrival = d := by simp [State.arrival, hdraw, applyChange]
  have hreply : ∀ out, s.reply .write out = .returned [] := fun out => by simp [State.reply, hdraw]
  have hstep := step_of_writeRule (setFieldWritesMerged s f x w b code hb hf hcode) hb (by simp [program]) (hreply _)
  exact ⟨_, hstep, by rw [← harrival]; rfl⟩

/-! ### The isolation law (R184) -/

section merge
variable {p : Params} {f g : Field} {c i : Nat}

/-- Bit `i` of a byte is one of the field's bits. -/
def InField (p : Params) (f : Field) (i : Nat) : Prop :=
  shiftOf p.layout f ≤ i ∧ i < shiftOf p.layout f + fieldWidth f

theorem placedMask_bit_outside (h : ¬ InField p f i) : (placedMask p f).getLsbD i = false := by
  rw [placedMask, BitVec.getLsbD_shiftLeft, mask_bit]
  by_cases hi : i < shiftOf p.layout f
  · simp [hi]
  · have : ¬ i - shiftOf p.layout f < fieldWidth f := by unfold InField at h; omega
    simp [this]

theorem placedMask_bit_inside (h : InField p f i) (hi : i < 8) : (placedMask p f).getLsbD i = true := by
  obtain ⟨hlo, hhi⟩ := h
  have hin : i - shiftOf p.layout f < fieldWidth f := by omega
  simp [placedMask, mask_bit, hin, hi, hlo.not_gt]

theorem placedCode_bit_outside (hc : c ≤ fieldMask f) (h : ¬ InField p f i) :
    (BitVec.ofNat 8 c <<< shiftOf p.layout f).getLsbD i = false := by
  rw [BitVec.getLsbD_shiftLeft, BitVec.getLsbD_ofNat]
  by_cases hi : i < shiftOf p.layout f
  · simp [hi]
  · have : fieldWidth f ≤ i - shiftOf p.layout f := by unfold InField at h; omega
    simp [code_bit hc this]

/-- A merge changes no bit outside its field. -/
theorem mergeField_bit_outside (hc : c ≤ fieldMask f) (h : ¬ InField p f i) (b : Byte) :
    (mergeField p f c b).getLsbD i = b.getLsbD i := by
  rw [mergeField, BitVec.getLsbD_or, BitVec.getLsbD_and, BitVec.getLsbD_not, placedMask_bit_outside h,
    placedCode_bit_outside hc h]
  by_cases hi : i < 8
  · simp [hi]
  · simp [hi, BitVec.getLsbD_of_ge b i (not_lt.1 hi)]

theorem mergeField_and_not_placedMask (hc : c ≤ fieldMask f) (b : Byte) :
    mergeField p f c b &&& ~~~ placedMask p f = b &&& ~~~ placedMask p f := by
  refine BitVec.eq_of_getLsbD_eq fun i hi => ?_
  rw [BitVec.getLsbD_and, BitVec.getLsbD_and, BitVec.getLsbD_not]
  by_cases h : InField p f i
  · simp [placedMask_bit_inside h hi]
  · rw [mergeField_bit_outside hc h]

/-- A field's code is made of the field's bits alone. -/
theorem fieldCode_congr {b b' : Byte} (h : ∀ i, InField p f i → b.getLsbD i = b'.getLsbD i) :
    fieldCode p f b = fieldCode p f b' := by
  refine congrArg BitVec.toNat (BitVec.eq_of_getLsbD_eq fun i _ => ?_)
  rw [BitVec.getLsbD_and, BitVec.getLsbD_and, BitVec.getLsbD_ushiftRight, BitVec.getLsbD_ushiftRight, mask_bit]
  by_cases hi : i < fieldWidth f
  · rw [h _ ⟨Nat.le_add_right _ _, Nat.add_lt_add_left hi _⟩]
  · simp [hi]

/-- Two fields of one holder have no bit in common, at a legal layout. -/
theorem not_inField_of_inField (hp : p.legal = true) (hne : g ≠ f) (hh : holder g = holder f) (h : InField p g i) :
    ¬ InField p f i := by
  have hdisjoint := legal_disjoint hp f g hne hh
  unfold InField at *
  omega

end merge

/-- Settles O53: a merge changes bits of its own field only, and there it is the code that is read back. -/
theorem fieldIsolation : Obligations.FieldIsolation := by
  intro p f x code b hp hcode
  have hc := codeOf_le hcode
  exact ⟨mergeField_and_not_placedMask hc b, fieldCode_mergeField hp hc b,
    fun g hne hh => fieldCode_congr fun i hi => mergeField_bit_outside hc (not_inField_of_inField hp hne hh hi) b,
    fun hl hf => mergeField_bit3 hl hf hc b⟩

/-- A merge at the default layout, by the constants of its field. -/
theorem mergeField_standard {p : Params} (hl : p.layout = .standard) {f : Field} {keep : Byte} {shift : Nat}
    (hkeep : ~~~ (BitVec.ofNat 8 (fieldMask f) <<< shiftOf .standard f) = keep) (hshift : shiftOf .standard f = shift)
    (c : Nat) (b : Byte) : mergeField p f c b = (b &&& keep) ||| (BitVec.ofNat 8 c <<< shift) := by
  rw [mergeField, placedMask, hl, hkeep, hshift]

/-- Settles O55: the eight masks and shifts; a shift by zero is none. -/
theorem modeFieldMasks : Obligations.ModeFieldMasks := by
  intro p b c hl
  have hzero : BitVec.ofNat 8 c <<< 0 = BitVec.ofNat 8 c := BitVec.shiftLeft_zero _
  have hlow : ∀ {f : Field}, ~~~ (BitVec.ofNat 8 (fieldMask f) <<< shiftOf .standard f) = (0xFC : Byte) →
      shiftOf .standard f = 0 → mergeField p f c b = (b &&& 0xFC) ||| BitVec.ofNat 8 c :=
    fun hkeep hshift => by rw [mergeField_standard hl hkeep hshift, hzero]
  exact ⟨hlow (f := .quadrature) rfl rfl, mergeField_standard hl rfl rfl c b, mergeField_standard hl rfl rfl c b,
    mergeField_standard hl rfl rfl c b, mergeField_standard hl rfl rfl c b, hlow (f := .bits) rfl rfl,
    mergeField_standard hl rfl rfl c b, mergeField_standard hl rfl rfl c b⟩

/-! ### Status flags (R200 to R208) -/

section status
variable {f : Field}

/-- A status field is one bit. -/
theorem fieldMask_of_str (hf : holder f = .str) : fieldMask f = 1 := by cases f <;> cases hf <;> rfl

theorem logicalOf_of_str (p : Params) (hf : holder f = .str) (c : Nat) : logicalOf p f c = .bool (c = 1) := by
  cases f <;> cases hf <;> rfl

/-- A status flag is the bit at its shift; past the byte both are false. -/
theorem statusFlag_eq_getLsbD (p : Params) (f : Field) (b : Byte) :
    statusFlag p f b = b.getLsbD (shiftOf p.layout f) := by
  have hand : b &&& ((1 : Byte) <<< shiftOf p.layout f) =
      if b.getLsbD (shiftOf p.layout f) then BitVec.twoPow 8 (shiftOf p.layout f) else 0 := BitVec.and_twoPow b _
  rw [statusFlag, hand]
  cases hbit : b.getLsbD (shiftOf p.layout f) with
  | false => simp
  | true =>
    have hlt : shiftOf p.layout f < 8 := BitVec.lt_of_getLsbD hbit
    have hpos : BitVec.twoPow 8 (shiftOf p.layout f) ≠ 0#8 := fun h => by
      simpa [hlt] using congrArg (BitVec.getLsbD · (shiftOf p.layout f)) h
    simpa using hpos

theorem fieldCode_of_str (p : Params) (hf : holder f = .str) (b : Byte) :
    fieldCode p f b = (b.getLsbD (shiftOf p.layout f)).toNat := by
  rw [fieldCode, fieldMask_of_str hf, BitVec.and_one_eq_setWidth_ofBool_getLsbD, BitVec.getLsbD_ushiftRight, Nat.add_zero]
  cases b.getLsbD (shiftOf p.layout f) <;> rfl

/-- The value of a status field is its flag, at every layout. -/
theorem fieldValue_of_str (p : Params) (hf : holder f = .str) (b : Byte) :
    fieldValue p f b = .bool (statusFlag p f b) := by
  rw [fieldValue, logicalOf_of_str p hf, fieldCode_of_str p hf, statusFlag_eq_getLsbD]
  cases b.getLsbD (shiftOf p.layout f) <;> rfl

end status

/-- The eight status fields with their masks, as the rules write them out. -/
def statusMasks : List (Field × Byte) :=
  [(.sign, 0x01), (.direction, 0x02), (.powerLoss, 0x04), (.countEnableEcho, 0x08),
    (.indexLatch, 0x10), (.compareLatch, 0x20), (.borrowLatch, 0x40), (.carryLatch, 0x80)]

/-- Each mask is the bit at its field's default shift. -/
theorem mask_of_mem_statusMasks :
    ∀ q ∈ statusMasks, holder q.1 = .str ∧ q.2 = (1 : Byte) <<< shiftOf .standard q.1 := by decide

/-- Settles O57: RD STR in `GET_FIELD` delivers the field's flag, whose mask at the default layout is the rule's. -/
theorem statusFieldBits : Obligations.StatusFieldBits := by
  intro s f m x b w held hl hm hb hr
  obtain ⟨hf, rfl⟩ : holder f = .str ∧ m = (1 : Byte) <<< shiftOf .standard f := mask_of_mem_statusMasks (f, m) hm
  have hvalue : fieldValue s.params f b = .bool ((b &&& ((1 : Byte) <<< shiftOf .standard f)) ≠ 0) := by
    rw [fieldValue_of_str s.params hf, statusFlag, hl]
  obtain ⟨hreturned, -, -⟩ := getField_readRule hb
  rw [hf] at hreturned
  rw [← hvalue]
  exact hreturned x [b] hr rfl

/-- Settles O58: each flag of the view is the value of its field. -/
theorem statusViewAgrees : Obligations.StatusViewAgrees :=
  fun p str _ => ⟨fieldValue_of_str p rfl str, fieldValue_of_str p rfl str, fieldValue_of_str p rfl str,
    fieldValue_of_str p rfl str, fieldValue_of_str p rfl str, fieldValue_of_str p rfl str, fieldValue_of_str p rfl str,
    fieldValue_of_str p rfl str⟩

/-! ### The get-after-set law (R187) -/

/-- The byte of a mode field's holder. -/
def holderByte (f : Field) (d : Device) : Byte := if holder f = .mdr0 then d.mdr0 else d.mdr1

/-- Two devices with the same mode registers. -/
structure SameModes (d d' : Device) : Prop where
  mdr0 : d.mdr0 = d'.mdr0
  mdr1 : d.mdr1 = d'.mdr1

section modes
variable {d d' d'' : Device} {f : Field}

theorem SameModes.trans (h : SameModes d d') (h' : SameModes d' d'') : SameModes d d'' :=
  ⟨h.mdr0.trans h'.mdr0, h.mdr1.trans h'.mdr1⟩

theorem SameModes.holderByte_eq (h : SameModes d d') (f : Field) : holderByte f d = holderByte f d' := by
  rw [holderByte, holderByte, h.mdr0, h.mdr1]

theorem SameModes.withHolder_congr (h : SameModes d d') (hf : readOnly f = false) (b : Byte) :
    SameModes (withHolder f b d) (withHolder f b d') := by
  obtain ⟨h0, h1⟩ := h
  rcases holder_of_writable hf with hh | hh
  · constructor <;> simp [withHolder, hh, h1]
  · constructor <;> simp [withHolder, hh, h0]

theorem holderByte_withHolder (hf : readOnly f = false) (b : Byte) (d : Device) :
    holderByte f (withHolder f b d) = b := by
  rcases holder_of_writable hf with hh | hh <;> simp [holderByte, withHolder, hh]

/-- The reference device answers RD of a mode field's holder with its byte. -/
theorem responseTo_holder (p : Params) (k : Nat) (d : Device) (hf : readOnly f = false) :
    responseTo p k d (zeros 1) (instrOf .read (holder f)) = [holderByte f d] := by
  rcases holder_of_writable hf with hh | hh <;> simp [holderByte, hh, instrOf, responseTo, answerIf]

end modes

section exclusive
variable {s t : State} {c : Command} {k : Nat} {w : Option Width} {held : Option Byte} {f : Field} {x : Logical}
  {rest : List Command}

/-- Under EXCLUSIVE the coming draw is no other master's, and the device answers. -/
theorem exclusive_draw (hs : s.Exclusive) :
    drawExclusive s.nextDraw = true ∧ ∃ echo, s.nextDraw.answer = .device echo := by
  obtain ⟨hworld, hdraws⟩ := hs
  cases henv : s.env with
  | nil => simp [State.nextDraw, henv, hworld, drawExclusive]
  | cons d env => simpa [State.nextDraw, henv] using hdraws d (by simp [henv])

/-- What the device does on its own leaves the mode registers. -/
theorem exclusive_arrival (hs : s.Exclusive) : SameModes s.arrival s.dev := by
  obtain ⟨hdraw, -⟩ := exclusive_draw hs
  unfold State.arrival
  cases hchange : s.nextDraw.change with
  | quiet | activity cntr otr str => exact ⟨rfl, rfl⟩
  | foreign d => simp [drawExclusive, hchange] at hdraw

theorem exclusive_reply_write (hs : s.Exclusive) (out : List Byte) : s.reply .write out = .returned [] := by
  obtain ⟨-, e, he⟩ := exclusive_draw hs
  simp [State.reply, he]

/-- RD of a mode field's holder is answered with the byte it has had. -/
theorem exclusive_reply_holder (hs : s.Exclusive) (hf : readOnly f = false) :
    ∃ e, s.reply .exchange (readFrame s.params (holder f) 1) = .returned [e, holderByte f s.dev] := by
  obtain ⟨-, e, he⟩ := exclusive_draw hs
  refine ⟨e, ?_⟩
  rw [← (exclusive_arrival hs).holderByte_eq f, ← responseTo_holder s.params s.drawn s.arrival hf]
  simp [State.reply, he, readFrame]

/-- EXCLUSIVE stays, transaction by transaction. -/
theorem exclusive_after (hs : s.Exclusive) (prim : Primitive) (out : List Byte) (reply : Reply) (d : Device) (b : Block)
    (new : List (Command × Result)) : (after s prim out reply d b new).Exclusive :=
  ⟨hs.1, fun x hx => hs.2 x (List.mem_of_mem_tail hx)⟩

/-- RD of a mode field's holder under EXCLUSIVE: `good` takes the byte of the holder. -/
theorem exclusive_step_read {good : List Byte → Block × List (Command × Result)} (hs : s.Exclusive)
    (hf : readOnly f = false) (hb : s.block = .busy c k w held) (hc : (program c)[k]? = some (.read, holder f))
    (h : ReadRule (instrOf .read (holder f)) s c (readFrame s.params (holder f) 1) good) :
    ∃ t reply, step s = .next t ∧ t.Exclusive ∧
      t = after s .exchange (readFrame s.params (holder f) 1) reply s.arrival
        (good [holderByte f s.dev]).1 (good [holderByte f s.dev]).2 := by
  obtain ⟨e, hr⟩ := exclusive_reply_holder hs hf
  exact ⟨_, _, step_of_readRule h hb (by simpa using hc) hr rfl, exclusive_after hs _ _ _ _ _ _, rfl⟩

/-- WR of the holder under EXCLUSIVE, with the byte `b` held. -/
theorem exclusive_step_write {code : Nat} {b : Byte} (hs : s.Exclusive) (hf : readOnly f = false)
    (hcode : codeOf s.params f x = some code) (hb : s.block = .busy (.setField f x) 1 w (some b)) :
    ∃ t out, step s = .next t ∧ t.Exclusive ∧
      t = after s .write out (.returned []) (withHolder f (mergeField s.params f code b) s.arrival) .idle
        [(.setField f x, .ok .unit)] :=
  ⟨_, _, step_of_writeRule (setFieldWritesMerged s f x w b code hb hf hcode) hb (by simp [program])
    (exclusive_reply_write hs _), exclusive_after hs _ _ _ _ _ _, rfl⟩

/-- `n` steps under EXCLUSIVE in which an Idle block accepts the command `c`, with `rest` behind it, and delivers `r`. -/
structure ExclusiveRun (n : Nat) (s t : State) (c : Command) (r : Result) (rest : List Command) : Prop where
  run : steps n s = .next t
  exclusive : t.Exclusive
  params : t.params = s.params
  block : t.block = .idle
  requests : t.requests = rest
  results : t.results = (c, r) :: s.results

/-- `SET_FIELD`: acceptance, the read of the holder, and the write of the merged byte. -/
theorem exclusive_setField {code : Nat} (hs : s.Exclusive) (hb : s.block = .idle)
    (hr : s.requests = .setField f x :: rest) (hf : readOnly f = false) (hcode : codeOf s.params f x = some code) :
    ∃ t, ExclusiveRun 3 s t (.setField f x) (.ok .unit) rest ∧
      SameModes t.dev (withHolder f (mergeField s.params f code (holderByte f s.dev)) s.dev) := by
  have haccept := step_accept hb hr (verdict_setField_code (holder_ne_str hf) hcode)
  set s₁ : State := { s with block := .busy (.setField f x) 0 none none, requests := rest }
  have hx₁ : s₁.Exclusive := hs
  obtain ⟨_, reply, hread, hx₂, rfl⟩ := exclusive_step_read hx₁ hf rfl rfl (setField_readRule rfl)
  obtain ⟨_, out, hwrite, hx₃, rfl⟩ := exclusive_step_write hx₂ hf hcode rfl
  have hmodes := (exclusive_arrival hx₂).trans (exclusive_arrival hx₁)
  have hrun : steps 3 s = .next _ := (steps_succ haccept).trans ((steps_succ hread).trans (steps_succ hwrite))
  exact ⟨_, ⟨hrun, hx₃, rfl, rfl, rfl, rfl⟩, hmodes.withHolder_congr hf _⟩

/-- `GET_FIELD` of a mode field: acceptance, and the read of the holder. -/
theorem exclusive_getField (hs : s.Exclusive) (hb : s.block = .idle) (hr : s.requests = .getField f :: rest)
    (hf : readOnly f = false) :
    ∃ t, ExclusiveRun 2 s t (.getField f) (.ok (.logical (fieldValue s.params f (holderByte f s.dev)))) rest ∧
      SameModes t.dev s.dev := by
  have haccept := step_accept hb hr rfl
  set s₁ : State := { s with block := .busy (.getField f) 0 none none, requests := rest }
  have hx₁ : s₁.Exclusive := hs
  obtain ⟨_, reply, hread, hx₂, rfl⟩ := exclusive_step_read hx₁ hf rfl rfl (getField_readRule rfl)
  have hrun : steps 2 s = .next _ := (steps_succ haccept).trans (steps_succ hread)
  exact ⟨_, ⟨hrun, hx₂, rfl, rfl, rfl, rfl⟩, exclusive_arrival hx₁⟩

end exclusive

/-- Settles O59: `SET_FIELD` leaves the merged byte in the holder, `GET_FIELD` finds it there, its code is the one written, and
that code stands for `x`. -/
theorem getAfterSet : Obligations.GetAfterSet := by
  refine ⟨fun s f x code rest hi hs hb hr hf hcode => ?_, fun s f x rest hb hr hf => ?_⟩
  · obtain ⟨hp, -⟩ := hi
    obtain ⟨t, ht, htdev⟩ := exclusive_setField hs hb hr hf hcode
    obtain ⟨u, hu, hudev⟩ := exclusive_getField ht.exclusive ht.block ht.requests hf
    have hvalue : fieldValue t.params f (holderByte f t.dev) = x := by
      rw [ht.params, htdev.holderByte_eq f, holderByte_withHolder hf, fieldValue, fieldCode_mergeField hp (codeOf_le hcode),
        logicalOf_of_codeOf (widthOf_bijective_of_legal hp) hcode]
    obtain ⟨hmdr0, hmdr1⟩ := hudev.trans htdev
    exact ⟨u, (steps_add 3 2 s t ht.run).trans hu.run, hu.block, hu.requests, by rw [hu.results, hvalue, ht.results],
      hmdr0, hmdr1⟩
  · exact step_answer hb hr (verdict_setField_readOnly hf)

end Sys2Proof.Machine
end

section
/-! PROOFS. The statements of 60_exceptions: the causes of refusal, the failed transaction and what `SET_COUNTS` leaves behind, and that
no outcome stops the block. -/

namespace Sys2Proof.Machine

/-! ### Refusals (R234) -/

/-- A value of too many bits is refused where the register can be written (41_codec R144). -/
theorem verdict_writeReg_tooWide {p : Params} {reg : Reg} {v : Nat} (ha : admitted .write reg = true)
    (hv : 2 ^ p.valueBits ≤ v) : verdict p (.writeReg reg v) = some (.refused .valueTooWide) := by
  simp [verdict, ha, hv]

/-- Settles O27: a pair that is not admitted passes acceptance and is refused by its byte; acceptance answers the other two. -/
theorem refusedCommandsChangeNothing : Obligations.RefusedCommandsChangeNothing := by
  refine fun s c rest hb hr => ⟨fun op reg hp ha => ?_, ?_, ?_⟩
  · rw [steps_succ (step_accept hb hr (verdict_of_not_admitted _ hp ha)), steps_succ (step_of_not_admitted rfl hp ha)]
    simp [steps, State.deliver, hb]
  · rintro reg v rfl ha hv
    exact steps_succ (step_answer hb hr (verdict_writeReg_tooWide ha hv))
  · rintro f x rfl hf
    exact steps_succ (step_answer hb hr (verdict_setField_readOnly (of_decide_eq_true hf)))

/-! ### A failed transaction (R232, R238) -/

section failed
variable {s t : State} {c : Command} {k : Nat} {w : Option Width} {held : Option Byte} {op : Op} {reg : Reg}
  {e : ErrorToken} {landed : Bool}

/-- A step whose transaction fails has issued a frame of the current byte and delivers the error. -/
theorem step_failed (hb : s.block = .busy c k w held) (hc : (program c)[k]? = some (op, reg))
    (ha : admitted op reg = true) (hf : s.nextDraw.answer = .fail e landed) (h : step s = .next t) :
    ∃ prim payload,
      t = (s.transacted prim (encodeByte s.params op reg :: payload)).deliver (.transportError e) := by
  rw [step_busy hb hc] at h
  exact exec_failed e landed ha hf h

/-- A failed transaction, landed or not, changes at most the register its byte names, and a read changes none. -/
theorem step_failed_frame (hb : s.block = .busy c k w held) (hc : (program c)[k]? = some (op, reg))
    (ha : admitted op reg = true) (hf : s.nextDraw.answer = .fail e landed) (h : step s = .next t) {reg' : Reg}
    (hframe : op = .read ∨ reg' ≠ reg) : deviceReg t.dev reg' = deviceReg s.arrival reg' := by
  obtain ⟨prim, payload, rfl⟩ := step_failed hb hc ha hf h
  exact landing_frame s op reg payload reg' (by simp [hf]) hframe

/-- A failed read leaves the device as it was on arrival. -/
theorem step_failed_read (hb : s.block = .busy c k w held) (hc : (program c)[k]? = some (.read, reg))
    (ha : admitted .read reg = true) (hf : s.nextDraw.answer = .fail e landed) (h : step s = .next t) :
    t.dev = s.arrival := by
  obtain ⟨prim, payload, rfl⟩ := step_failed hb hc ha hf h
  simp [State.landing_of_failed _ hf]

/-- A failed LOAD CNTR has copied DTR to CNTR or not. -/
theorem step_failed_loadCntr (hb : s.block = .busy c k w held) (hc : (program c)[k]? = some (.load, .cntr))
    (hf : s.nextDraw.answer = .fail e landed) (h : step s = .next t) :
    t.dev.cntr = s.arrival.cntr ∨ t.dev.cntr = s.arrival.dtr := by
  obtain ⟨prim, payload, rfl⟩ := step_failed hb hc rfl hf h
  cases landed <;> simp [State.landing_of_failed _ hf, instrOf, afterInstr]

end failed

/-- Settles O30: the step is one transaction of the current byte and the delivery of its error. -/
theorem transportErrorEndsCommand : Obligations.TransportErrorEndsCommand := by
  intro s t c k w held op reg e landed hb hc ha hf h
  rw [State.current_busy hb] at hc
  obtain ⟨prim, payload, rfl⟩ := step_failed hb hc ha hf h
  refine ⟨rfl, State.deliver_results _ hb, ⟨_, State.reply_of_failed prim _ hf, rfl⟩, ?_⟩
  rintro rfl
  simp [State.landing_of_failed _ hf]

/-- Settles O31: the width query is a read; WR DTR and LOAD CNTR change at most the register they name. -/
theorem setCountsResidue : Obligations.SetCountsResidue := by
  refine fun s t v k w held e landed hb hf h => ⟨?_, ?_, ?_⟩ <;> rintro rfl
  · exact step_failed_read hb rfl rfl hf h
  · exact BitVec.eq_of_toNat_eq (step_failed_frame (reg' := .cntr) hb rfl rfl hf h (.inr (by decide)))
  · exact ⟨BitVec.eq_of_toNat_eq (step_failed_frame (reg' := .dtr) hb rfl rfl hf h (.inr (by decide))),
      step_failed_loadCntr hb rfl hf h⟩

/-! ### No outcome stops the block (R230, R236, R237) -/

/-- A command in an allowed form has a use for what its read returns: only `GET_COUNTS` needs a width for it, and by then one is
latched (41_codec R152). -/
theorem State.afterRead_next {s : State} {c : Command} {k : Nat} {w : Option Width} {held : Option Byte} {reg : Reg}
    (hi : s.Inv) (hb : s.block = .busy c k w held) (hc : (program c)[k]? = some (.read, reg)) (v : Nat) :
    ∃ t, s.afterRead v = .next t := by
  obtain ⟨-, -, hw, -⟩ := ready_of_inv hi hb
  unfold State.afterRead
  rw [hb]
  cases c with
  | encode op r => simp [program] at hc
  | load r | clear r => simp [program, List.getElem?_singleton] at hc
  | readReg r => by_cases hquery : (isWide r && k == 0) = true <;> simp [hquery]
  | getCounts =>
    by_cases hk : k = 0
    · simp [hk]
    · obtain ⟨w', rfl⟩ : ∃ w', w = some w' := Option.isSome_iff_exists.1 (by simp [hw, latchesWidth, hk])
      simp [hk]
  | writeReg r v' | setCounts v' | getField f | setField f x => exact ⟨_, rfl⟩

/-- A transaction answers a next state, however the channel ends it, where the command has a use for what a read returns. -/
theorem State.transact_next {s : State} {prim : Primitive} {out : List Byte}
    (hread : prim = .exchange → ∀ v, ∃ t, (s.transacted prim out).afterRead v = .next t) :
    ∃ t, s.transact prim out = .next t := by
  cases hr : s.reply prim out with
  | silent => exact ⟨s, by simp [State.transact, hr]⟩
  | failed e => exact ⟨_, State.transact_failed hr⟩
  | returned rx =>
    cases prim with
    | write => exact ⟨_, State.transact_write_returned hr⟩
    | exchange =>
      by_cases hlen : rx.length = out.length
      · rw [State.transact_exchange_returned hr hlen]
        exact hread rfl _
      · exact ⟨_, State.transact_exchange_mismatch hr hlen⟩

/-- Settles O42: an Idle block accepts; a busy one has a current byte, which is refused or issues its transaction. -/
theorem blockNeverStops : Obligations.BlockNeverStops := by
  intro s hi
  cases hb : s.block with
  | idle => exact ⟨_, step_idle hb⟩
  | busy c k w held =>
    obtain ⟨-, hk, -, -⟩ := ready_of_inv hi hb
    have hc : (program c)[k]? = some ((program c)[k].1, (program c)[k].2) := List.getElem?_eq_getElem hk
    rw [step_busy hb hc]
    rcases exec_reaches hi hb hc with ⟨-, h⟩ | ⟨-, hop, n, h⟩ | ⟨-, -, payload, h⟩ <;> rw [h]
    · exact ⟨_, rfl⟩
    · rw [hop] at hc
      exact State.transact_next fun _ => State.afterRead_next (s := s.transacted _ _) hi hb hc
    · exact State.transact_next nofun

end Sys2Proof.Machine
end

section
/-! PROOFS. The statements of 70_reset_and_hazards: every command ends where the channel returns, the number of its transactions, and
the snapshot of the count. -/

namespace Sys2Proof.Machine

open Sys2Proof.Claims

/-! ### Every command ends (R279) -/

section returns
variable {s : State} {c : Command} {k : Nat} {w : Option Width} {held : Option Byte}

/-- Under CHANNEL_RETURNS a step of a busy block delivers the command's outcome or goes on to its next transaction. -/
theorem step_of_channelReturns (hi : s.Inv) (hs : s.ChannelReturns) (hb : s.block = .busy c k w held) :
    ∃ t, step s = .next t ∧ t.ChannelReturns ∧ t.bus.length ≤ s.bus.length + 1 ∧
      ((t.block = .idle ∧ ∃ r, t.results = (c, r) :: s.results) ∨
       (t.results = s.results ∧ ∃ w' held', t.block = .busy c (k + 1) w' held')) := by
  obtain ⟨t, ht⟩ := blockNeverStops s hi
  obtain ⟨op, reg, -, he⟩ := step_exec hb ht
  obtain ⟨hreturns, hbus, ⟨hidle, c', k', w', held', r, hb', hr⟩ | ⟨hbusy, hne, hr⟩⟩ := exec_nosilent he hs
  · rw [hb] at hb'
    cases hb'
    exact ⟨t, ht, hreturns, hbus, .inl ⟨hidle, r, hr⟩⟩
  · refine ⟨t, ht, hreturns, hbus, .inr ⟨hr, ?_⟩⟩
    rcases step_forms hi hb ht with rfl | ⟨hidle, -⟩ | ⟨-, -, ⟨rfl, -, w', h⟩ | ⟨rfl, -, b, h⟩ | ⟨-, h⟩⟩
    · exact absurd rfl hne
    · exact absurd hidle hbusy
    · exact ⟨_, _, h⟩
    · exact ⟨_, _, h⟩
    · exact ⟨_, _, h⟩

/-- The command ends within the transactions it has left, by induction on their number `m`. -/
theorem ends_of_channelReturns (m : Nat) (hi : s.Inv) (hs : s.ChannelReturns) (hb : s.block = .busy c k w held)
    (hm : (program c).length ≤ k + m) :
    ∃ n t r, n ≤ m ∧ steps n s = .next t ∧ t.block = .idle ∧ t.results = (c, r) :: s.results ∧
      t.bus.length ≤ s.bus.length + n := by
  induction m generalizing s k w held with
  | zero =>
    obtain ⟨-, hk, -, -⟩ := ready_of_inv hi hb
    omega
  | succ m ih =>
    obtain ⟨t, ht, hreturns, hbus, ⟨hidle, r, hr⟩ | ⟨hr, w', held', hb'⟩⟩ := step_of_channelReturns hi hs hb
    · exact ⟨1, t, r, by omega, steps_succ ht, hidle, hr, hbus⟩
    · obtain ⟨n, u, r, hn, hu, hidle, hr', hbus'⟩ := ih (stepKeepsBlockForm s t hi ht) hreturns hb' (by omega)
      exact ⟨n + 1, u, r, by omega, (steps_succ ht).trans hu, hidle, by rw [hr', hr], by omega⟩

end returns

/-- Settles O46: each step ends the command or uses up one of its transactions, of which it has at most three. -/
theorem commandsEnd : Obligations.CommandsEnd := by
  intro s c k w held hi hs hb
  exact ends_of_channelReturns 3 hi hs hb (by have := program_length_le c; omega)

/-! ### The number of transactions (R280) -/

section completes
variable {s : State} {c : Command} {k : Nat} {w : Option Width} {held : Option Byte} {op : Op} {reg : Reg}

/-- How a completed transaction `k` of the command `c` leaves the state `s` that it led to: the next transaction is current, or it was
the last one and `Ok` is delivered. -/
def State.Completes (s t : State) (c : Command) (k : Nat) : Prop :=
  (k + 1 < (program c).length ∧ ∃ w held, t = s.advance w held) ∨
  ((program c).length ≤ k + 1 ∧ ∃ v, t = s.deliver (.ok v))

theorem State.afterWrite_completes (hb : s.block = .busy c k w held) : s.Completes s.afterWrite c k :=
  (State.afterWrite_cases hb).imp (fun ⟨hk, h⟩ => ⟨hk, w, held, h⟩) (fun ⟨hk, h⟩ => ⟨hk, .unit, h⟩)

/-- A raw access to an admitted register has two transactions where the register is wide (41_codec R145, R146). -/
theorem rawProgram_length (ha : admitted op reg = true) : (rawProgram op reg).length = if isWide reg then 2 else 1 := by
  cases hw : isWide reg <;> simp [rawProgram, ha, hw]

/-- A width query is not the last transaction of its command. -/
theorem one_lt_program_length_of_latchesWidth (hl : latchesWidth c = true) : 1 < (program c).length := by
  cases c with
  | readReg r | writeReg r v =>
    obtain ⟨ha, hw⟩ := Bool.and_eq_true_iff.1 hl
    simp [program, rawProgram_length ha, hw]
  | getCounts | setCounts v => simp [program]
  | encode op r | load r | clear r | getField f | setField f x => cases hl

theorem State.afterRead_query_completes (hl : latchesWidth c = true) (hb : s.block = .busy c 0 w held) (v : Nat) :
    ∃ t, s.afterRead v = .next t ∧ s.Completes t c 0 :=
  ⟨_, State.afterRead_query hl hb v, .inl ⟨one_lt_program_length_of_latchesWidth hl, _, _, rfl⟩⟩

/-- `READ_REG` delivers what its last transaction reads. -/
theorem State.afterRead_readReg_completes {r : Reg} (ha : admitted .read r = true)
    (hb : s.block = .busy (.readReg r) k w held) (v : Nat) :
    ∃ t, s.afterRead v = .next t ∧ s.Completes t (.readReg r) k := by
  by_cases hquery : isWide r = true ∧ k = 0
  · obtain ⟨hw, rfl⟩ := hquery
    have hl : latchesWidth (.readReg r) = true := Bool.and_eq_true_iff.2 ⟨ha, hw⟩
    exact State.afterRead_query_completes hl hb v
  · have hlast : (program (.readReg r)).length ≤ k + 1 := by
      rw [program, rawProgram_length ha]
      by_cases hw : isWide r = true
      · have hk : k ≠ 0 := fun hk => hquery ⟨hw, hk⟩
        simp only [hw, if_true]
        omega
      · simp [hw]
    have hvalue : isWide r = false ∨ k ≠ 0 := by simpa [imp_iff_not_or] using hquery
    exact ⟨_, State.afterRead_readReg hb hvalue v, .inr ⟨hlast, _, rfl⟩⟩

/-- What a command does with a read: it delivers the value exactly where the read is its last transaction. -/
theorem State.afterRead_completes (hi : s.Inv) (hb : s.block = .busy c k w held)
    (hc : (program c)[k]? = some (.read, reg)) (ha : ∀ q ∈ program c, admitted q.1 q.2 = true) (v : Nat) :
    ∃ t, s.afterRead v = .next t ∧ s.Completes t c k := by
  obtain ⟨-, hk, hw, -⟩ := ready_of_inv hi hb
  cases c with
  | encode op r => simp [program] at hc
  | load r | clear r => simp [program, List.getElem?_singleton] at hc
  | readReg r =>
    have hr : admitted .read r = true := ha (.read, r) (by simp only [program, rawProgram]; split <;> simp)
    exact State.afterRead_readReg_completes hr hb v
  | writeReg r v' =>
    by_cases hl : latchesWidth (.writeReg r v') = true
    · have hprogram : program (.writeReg r v') = [(.read, .mdr1), (.write, r)] := if_pos hl
      obtain _ | _ | k := k <;> simp [hprogram] at hc
      exact State.afterRead_query_completes hl hb v
    · have hprogram : program (.writeReg r v') = [(.write, r)] := if_neg hl
      simp [hprogram, List.getElem?_singleton] at hc
  | getCounts =>
    obtain _ | k := k
    · exact State.afterRead_query_completes rfl hb v
    · obtain rfl : k = 0 := by simpa [program] using hk
      obtain ⟨w', rfl⟩ : ∃ w', w = some w' := Option.isSome_iff_exists.1 (by simp [hw, latchesWidth])
      exact ⟨_, State.afterRead_getCounts hb v, .inr ⟨le_rfl, _, rfl⟩⟩
  | setCounts v' =>
    obtain _ | _ | _ | k := k <;> simp [program] at hc
    exact State.afterRead_query_completes rfl hb v
  | getField f => exact ⟨_, State.afterRead_getField hb v, .inr ⟨by simp [program], _, rfl⟩⟩
  | setField f x =>
    obtain _ | _ | k := k <;> simp [program] at hc
    exact ⟨_, State.afterRead_setField hb v, .inl ⟨by simp [program], _, _, rfl⟩⟩

end completes

section counts
variable {s : State} {c : Command} {k : Nat} {w : Option Width} {held : Option Byte}

/-- The reference device answers every frame with as many bytes as it has fillers (20_memory R70). -/
theorem responseTo_length (p : Params) (k : Nat) (d : Device) (filler : List Byte) (i : Instr) :
    (responseTo p k d filler i).length = filler.length := by
  have hanswer : ∀ n rx, rx.length = n → (answerIf k filler n rx).length = filler.length := by
    intro n rx hrx
    by_cases hf : filler = zeros n
    · simp [answerIf, hf, hrx]
    · simp [answerIf, hf]
  cases i with
  | rdMdr0 | rdMdr1 | rdStr => exact hanswer 1 _ rfl
  | rdCntr | rdOtr => exact hanswer _ _ (length_be _ _)
  | clrMdr0 | clrMdr1 | clrDtr | clrCntr | clrOtr | clrStr | rdDtr | wrMdr0 | wrMdr1 | wrDtr | wrCntr | wrOtr | wrStr
  | loadMdr0 | loadMdr1 | loadDtr | loadCntr | loadOtr | loadStr => exact freeBytes_length _ _

/-- With the reference device alone on the channel, a step of a busy block is one completed transaction. -/
theorem calm_step_completes (hi : s.Inv) (hs : s.Calm) (hb : s.block = .busy c k w held)
    (ha : ∀ q ∈ program c, admitted q.1 q.2 = true) :
    ∃ prim out t, step s = .next t ∧ (s.transacted prim out).Completes t c k := by
  obtain ⟨-, hk, -, -⟩ := ready_of_inv hi hb
  have hc : (program c)[k]? = some ((program c)[k].1, (program c)[k].2) := List.getElem?_eq_getElem hk
  rw [step_busy hb hc]
  rcases exec_reaches hi hb hc with ⟨hna, -⟩ | ⟨-, hop, n, h⟩ | ⟨-, -, payload, h⟩
  · rw [ha _ (List.getElem_mem hk)] at hna
    cases hna
  · obtain ⟨e, hr⟩ := calm_read hs (program c)[k].2 n
    rw [h, readFrame, State.transact_exchange_returned hr (by simp [responseTo_length])]
    rw [hop] at hc
    exact ⟨_, _, State.afterRead_completes (s := s.transacted _ _) hi hb hc ha _⟩
  · rw [h, State.transact_write_returned (calm_write hs _)]
    exact ⟨_, _, _, rfl, State.afterWrite_completes (s := s.transacted _ _) hb⟩

/-- The command ends `Ok` after exactly the transactions it has left, by induction on their number `m`. -/
theorem calm_completes (m : Nat) (hi : s.Inv) (hs : s.Calm) (hb : s.block = .busy c k w held)
    (ha : ∀ q ∈ program c, admitted q.1 q.2 = true) (hm : (program c).length = k + m) :
    ∃ t v, steps m s = .next t ∧ t.block = .idle ∧ t.requests = s.requests ∧ t.results = (c, .ok v) :: s.results ∧
      t.bus.length = s.bus.length + m := by
  induction m generalizing s k w held with
  | zero =>
    obtain ⟨-, hk, -, -⟩ := ready_of_inv hi hb
    omega
  | succ m ih =>
    obtain ⟨prim, out, t, ht, ⟨hk, w', held', rfl⟩ | ⟨hk, v, rfl⟩⟩ := calm_step_completes hi hs hb ha
    · have hcalm : ((s.transacted prim out).advance w' held').Calm :=
        ⟨hs.1, fun d hd => hs.2 d (List.mem_of_mem_tail hd)⟩
      obtain ⟨u, v, hu, hidle, hrequests, hresults, hbus⟩ :=
        ih (stepKeepsBlockForm s _ hi ht) hcalm (State.advance_block w' held' hb) (by omega)
      rw [State.advance_bus, State.transacted_bus, List.length_cons] at hbus
      exact ⟨u, v, (steps_succ ht).trans hu, hidle, hrequests, hresults, by omega⟩
    · obtain rfl : m = 0 := by omega
      exact ⟨_, v, steps_succ ht, rfl, rfl, State.deliver_results _ hb, rfl⟩

theorem admitted_of_mem_rawProgram {op : Op} {reg : Reg} (ha : admitted op reg = true) :
    ∀ q ∈ rawProgram op reg, admitted q.1 q.2 = true := by
  intro q hq
  cases hw : isWide reg with
  | false =>
    obtain rfl : q = (op, reg) := by simpa [rawProgram, hw] using hq
    exact ha
  | true =>
    obtain rfl | rfl : q = (.read, .mdr1) ∨ q = (op, reg) := by simpa [rawProgram, ha, hw] using hq
    · rfl
    · exact ha

/-- A command that passes its checks, on an admitted pair where it names one, has admitted bytes alone. -/
theorem admitted_of_mem_program {p : Params} (hp : ∀ op reg, rawPair c = some (op, reg) → admitted op reg = true)
    (hv : verdict p c = none) : ∀ q ∈ program c, admitted q.1 q.2 = true := by
  cases c with
  | encode op r => simp [program]
  | readReg r | writeReg r v => exact admitted_of_mem_rawProgram (hp _ r rfl)
  | load r | clear r => simpa [program] using hp _ r rfl
  | getCounts | setCounts v => simp [program, admitted]
  | getField f => simpa [program] using admitted_read_holder f
  | setField f x =>
    have hf : readOnly f = false := by
      refine Bool.eq_false_iff.2 fun hf => ?_
      simp [verdict, hf] at hv
    simp [program, admitted_read_holder, admitted_write_holder hf]

/-- The table of R280 is the length of the command's sequence. -/
theorem program_length (hp : ∀ op reg, rawPair c = some (op, reg) → admitted op reg = true) :
    (program c).length = countOf c := by
  cases c with
  | readReg r =>
    rw [program, rawProgram_length (hp _ r rfl)]
    cases r <;> rfl
  | writeReg r v =>
    have ha := hp _ r rfl
    rw [program, rawProgram_length ha]
    cases r with
    | mdr0 | mdr1 | dtr => rfl
    | cntr | otr | str => cases ha
  | encode op r | load r | clear r | getCounts | setCounts v | getField f | setField f x => rfl

end counts

/-- Settles O47: acceptance answers `ENCODE` with no transaction; any other command runs the transactions of its sequence, each
completed by the reference device. -/
theorem transactionCounts : Obligations.TransactionCounts := by
  intro s c rest hi hs hb hr hp hv
  rcases hv with hv | ⟨op, reg, rfl⟩
  · have haccept := step_accept hb hr hv
    have hi' := stepKeepsBlockForm s _ hi haccept
    obtain ⟨t, v, ht, h⟩ := calm_completes (countOf c) hi' hs rfl (admitted_of_mem_program hp hv)
      ((program_length hp).trans (Nat.zero_add _).symm)
    exact ⟨t, v, (steps_succ haccept).trans ht, h⟩
  · exact ⟨_, _, steps_succ (step_answer hb hr rfl), hb, rfl, rfl, rfl⟩

/-! ### The snapshot of the count (R276) -/

/-- The response to RD OTR at the device's width is the low `w` bits of OTR (20_memory R70). -/
theorem responseTo_rdOtr (p : Params) (k : Nat) (d : Device) :
    responseTo p k d (zeros (queriedWidth p d.mdr1).bytes) .rdOtr =
      be (d.otr.toNat % 2 ^ (queriedWidth p d.mdr1).bits) (queriedWidth p d.mdr1).bytes := by
  have hbytes : deviceBytes p d = (queriedWidth p d.mdr1).bytes := rfl
  simp [responseTo, answerIf, hbytes, ← Width.bits_eq]

/-- LOAD OTR in `LOAD(OTR)`. -/
theorem loadOtr_writeRule {s : State} {w : Option Width} {held : Option Byte} (hb : s.block = .busy (.load .otr) 0 w held) :
    WriteRule .loadOtr s (.load .otr) [0xE8] { s.arrival with otr := s.arrival.cntr } .idle
      [(.load .otr, .ok .unit)] := by
  obtain ⟨-, -, hrule⟩ := loadFramesComplete s w held 0
  exact hrule hb

/-- RD OTR in `READ_REG(OTR)`, at the latched width. -/
theorem readOtr_readRule {s : State} {w : Width} {held : Option Byte}
    (hb : s.block = .busy (.readReg .otr) 1 (some w) held) :
    ReadRule .rdOtr s (.readReg .otr) (readFrame s.params .otr w.bytes)
      (fun rx => (.idle, [(.readReg .otr, .ok (.nat (unBE rx)))])) :=
  readReg_wide (reg := .otr) rfl rfl rfl hb

/-- The device answers an Exchange of a read frame with its register on arrival. -/
theorem State.reply_device {s : State} {e : Byte} (he : s.nextDraw.answer = .device e) (reg : Reg) (n : Nat) :
    s.reply .exchange (readFrame s.params reg n) =
      .returned (e :: responseTo s.params s.drawn s.arrival (zeros n) (instrOf .read reg)) := by
  simp [State.reply, he, readFrame]

/-- `LOAD(OTR)` whole: acceptance and its control frame; OTR takes the count of the frame's arrival (R124). -/
theorem loadOtr_runs {s : State} {rest : List Command} {e : Byte} (hb : s.block = .idle)
    (hr : s.requests = .load .otr :: rest) (he : s.nextDraw.answer = .device e) :
    steps 2 s = .next
      (after { s with requests := rest } .write [0xE8] (.returned []) { s.arrival with otr := s.arrival.cntr } .idle
        [(.load .otr, .ok .unit)]) := by
  rw [steps_succ (step_accept hb hr rfl)]
  set s₁ : State := { s with block := .busy (.load .otr) 0 none none, requests := rest }
  have hreply : s₁.reply .write [0xE8] = .returned [] := by
    have he₁ : s₁.nextDraw.answer = .device e := he
    simp [State.reply, he₁]
  exact steps_succ (step_of_writeRule (loadOtr_writeRule rfl) rfl rfl hreply)

/-- `READ_REG(OTR)` whole, where the device changes nothing after the width query has arrived: the low `w` bits of OTR. -/
theorem readOtr_runs {s : State} {rest : List Command} {ch : DevChange} {e e' : Byte} {env : List Draw}
    (hb : s.block = .idle) (hr : s.requests = .readReg .otr :: rest)
    (henv : s.env = { change := ch, answer := .device e } :: { change := .quiet, answer := .device e' } :: env) :
    ∃ t, steps 3 s = .next t ∧ t.block = .idle ∧
      t.results =
        (.readReg .otr, .ok (.nat (s.arrival.otr.toNat % 2 ^ (queriedWidth s.params s.arrival.mdr1).bits))) :: s.results := by
  set d := s.arrival
  set width := queriedWidth s.params d.mdr1
  have haccept := step_accept hb hr rfl
  set s₁ : State := { s with block := .busy (.readReg .otr) 0 none none, requests := rest }
  have hreply₁ : s₁.reply .exchange [0x50, 0x00] = .returned [e, d.mdr1] := by
    have he : s₁.nextDraw.answer = .device e := by simp [State.nextDraw, s₁, henv]
    rw [← readFrame_mdr1 s₁.params, State.reply_device he]
    exact congrArg (fun rx => Reply.returned (e :: rx)) (responseTo_rdMdr1 _ _ _)
  have hquery := step_query rfl rfl hreply₁
  set s₂ := after s₁ .exchange [0x50, 0x00] (.returned [e, d.mdr1]) d (.busy (.readReg .otr) 1 (some width) none) []
  have hdraw₂ : s₂.nextDraw = { change := .quiet, answer := .device e' } := by
    simp [State.nextDraw, s₂, s₁, after, henv]
  have harrival₂ : s₂.arrival = d := by rw [State.arrival, hdraw₂]; rfl
  have hreply₂ : s₂.reply .exchange (readFrame s.params .otr width.bytes) =
      .returned (e' :: be (d.otr.toNat % 2 ^ width.bits) width.bytes) := by
    have h := State.reply_device (congrArg Draw.answer hdraw₂) .otr width.bytes
    rw [harrival₂] at h
    exact h.trans (congrArg (fun rx => Reply.returned (e' :: rx)) (responseTo_rdOtr _ _ _))
  have hread := step_of_readRule (readOtr_readRule rfl) rfl rfl hreply₂ (by simp [readFrame, length_be])
  refine ⟨_, (steps_succ haccept).trans ((steps_succ hquery).trans (steps_succ hread)), rfl, ?_⟩
  simp [after, s₂, s₁, unBE_be, ← Width.bits_eq]

/-- Settles O52: LOAD OTR copies CNTR to OTR; what moves CNTR and STR afterwards leaves OTR and the width, and RD OTR finds them. -/
theorem snapshotReads : Obligations.SnapshotReads := by
  intro s rest e e' e'' cntr str env _ hb hr henv
  have hdraw : s.nextDraw = { change := .quiet, answer := .device e } := by simp [State.nextDraw, henv]
  have harrival : s.arrival = s.dev := by simp [State.arrival, hdraw, applyChange]
  have hload := loadOtr_runs hb hr (congrArg Draw.answer hdraw)
  rw [harrival] at hload
  set u := after { s with requests := .readReg .otr :: rest } .write [0xE8] (.returned []) { s.dev with otr := s.dev.cntr }
    .idle [(.load .otr, .ok .unit)]
  have henv' : u.env = _ := congrArg List.tail henv
  have hdev : u.arrival = { s.dev with otr := s.dev.cntr, cntr := cntr, str := str } := by
    rw [State.arrival, State.nextDraw, henv']; rfl
  obtain ⟨t, ht, hidle, hresults⟩ := readOtr_runs rfl rfl henv'
  rw [hdev] at hresults
  exact ⟨t, (steps_add 2 3 s u hload).trans ht, hidle, hresults⟩

end Sys2Proof.Machine
end

section
/-! PROOFS. The two statements about what the spec leaves open: an instruction byte out of turn (40_encoder, opening), and a channel that
never returns (93 I9). -/

namespace Sys2Proof.Machine

/-- Every way `exec` runs a pair, its refusal included, checks first that the pair is the current one. -/
theorem exec_of_not_current {s : State} {op : Op} {reg : Reg} (hc : s.current ≠ some (op, reg)) :
    exec (instrOf op reg) s = .fault .notCurrent := by
  rw [exec_instrOf]
  cases admitted op reg with
  | false => exact if_neg hc
  | true =>
    cases op with
    | read | write | clear | load => exact if_neg hc

/-- Settles O22: an instruction is that of its pair, and the pair is not the current one. -/
theorem outOfTurnByteFaults : Obligations.OutOfTurnByteFaults := by
  intro i s hc
  rw [exec_eq i]
  exact exec_of_not_current hc

/-- While the coming answer is silent, a step that runs an admitted pair is a step back to the same state. -/
theorem step_of_silent {s : State} {c : Command} {k : Nat} {w : Option Width} {held : Option Byte} (hi : s.Inv)
    (hb : s.block = .busy c k w held) (hs : s.nextDraw.answer = .silent)
    (hadmitted : ∀ op reg, s.current = some (op, reg) → admitted op reg = true) : step s = .next s := by
  obtain ⟨t, ht⟩ := blockNeverStops s hi
  obtain ⟨op, reg, hc, he⟩ := step_exec hb ht
  obtain ⟨_, _, _, _, -, -, -, ⟨ha, -⟩ | ⟨-, -, rfl⟩ | ⟨-, hns, -⟩⟩ := exec_frames he
  · exact absurd (hadmitted op reg hc) (by simp [ha])
  · exact ht
  · exact absurd hs hns

/-- Settles O32: the step leads back to the same state, so everything stays, the silence included. -/
theorem silentChannelStalls : Obligations.SilentChannelStalls := by
  intro s hi hbusy hs hadmitted
  cases hb : s.block with
  | idle => exact absurd hb hbusy
  | busy c k w held => exact ⟨s, step_of_silent hi hb hs hadmitted, hb, rfl, rfl, hs⟩

end Sys2Proof.Machine
end
